-- ==== Sys2Proof/Word.lean ====
section
/-! DEFINITION. The machine's fixed-width quantities (00_scope.md R6, R7): a byte, a 16-bit word
(data address, transfer target, call-stack entry) and the 17-bit ROM cursor. All are unsigned. -/

namespace Sys2Proof

/-- A byte: 8 bits, unsigned (R7; `XLEN` = 8 in R6). -/
abbrev Byte := BitVec 8

/-- A 16-bit unsigned quantity: a `WORD` or `LABEL` operand, a data-memory address, a call-stack
entry (`ADDR_BITS` and `STACK_ENTRY_BITS` of R6). -/
abbrev Addr := BitVec 16

/-- A ROM cursor: 17 bits, so that 65536 is representable (10_state.md R14; `CURSOR_BITS` of R6). -/
abbrev Cursor := BitVec 17

end Sys2Proof
end

