-- ==== Sys2Proof/Config.lean ====
section
/-! DEFINITION. The configuration of one machine instance: the OPEN parameters of 00_scope.md R6 as
plain data (`OPCODE_MAP`, `STACK_CAP`, `CFG_COND_RETURN`, `CFG_JLE`, `DIV0_POLICY`), and its fixed
parameters as constants. A `Config` is a field of the state that construction sets and no step
changes, so every statement about all states is a statement about all settings of the parameters.
The default VALUES of the parameters stand in Sys2Proof/Decode.lean. -/

namespace Sys2Proof

/-- The 45 opcodes: the 43 mnemonics and the two sentinels, in the order of the table of
30_encoding.md R54. Their byte values are the configuration's (`OpcodeMap`). -/
inductive Opcode where
  | nop | nxt | hlt
  | smr | srm | srb | smb | srr
  | add | sub | mul | div | mod | xor | and | orr | xnr | nan | nor | bsl | bsr
  | not
  | psh | teq | tnq | tgt | tlt | tge | tle | jmp | jeq | jnq | jgt | jlt | jge | jle
  | pop | peq | pnq | pgt | plt | pge | ple
  | opIgnore | opUnignore
  deriving DecidableEq, Repr

/-- Every opcode, in the order of the table of R54. -/
def Opcode.all : List Opcode :=
  [ .nop, .nxt, .hlt,
    .smr, .srm, .srb, .smb, .srr,
    .add, .sub, .mul, .div, .mod, .xor, .and, .orr, .xnr, .nan, .nor, .bsl, .bsr,
    .not,
    .psh, .teq, .tnq, .tgt, .tlt, .tge, .tle, .jmp, .jeq, .jnq, .jgt, .jlt, .jge, .jle,
    .pop, .peq, .pnq, .pgt, .plt, .pge, .ple,
    .opIgnore, .opUnignore ]

/-- The call opcodes of R53(b). -/
def Opcode.calls : List Opcode := [.psh, .teq, .tnq, .tgt, .tlt, .tge, .tle]

/-- The jump opcodes of R53(b). -/
def Opcode.jumps : List Opcode := [.jmp, .jeq, .jnq, .jgt, .jlt, .jge, .jle]

/-- The return opcodes (45_return.md R155). -/
def Opcode.returns : List Opcode := [.pop, .peq, .pnq, .pgt, .plt, .pge, .ple]

/-- `OPCODE_MAP` (R6, R53): the byte of every opcode, and `JMP_THRESHOLD`, the value that parts the
calls from the jumps. -/
structure OpcodeMap where
  (nop nxt hlt : Byte)
  (smr srm srb smb srr : Byte)
  (add sub mul div mod xor and orr xnr nan nor bsl bsr : Byte)
  (not : Byte)
  (psh teq tnq tgt tlt tge tle jmp jeq jnq jgt jlt jge jle : Byte)
  (pop peq pnq pgt plt pge ple : Byte)
  (opIgnore opUnignore : Byte)
  (jmpThreshold : Byte)
  deriving DecidableEq, Repr

/-- The byte that the map gives an opcode. -/
def OpcodeMap.code (m : OpcodeMap) : Opcode → Byte
  | .nop => m.nop
  | .nxt => m.nxt
  | .hlt => m.hlt
  | .smr => m.smr
  | .srm => m.srm
  | .srb => m.srb
  | .smb => m.smb
  | .srr => m.srr
  | .add => m.add
  | .sub => m.sub
  | .mul => m.mul
  | .div => m.div
  | .mod => m.mod
  | .xor => m.xor
  | .and => m.and
  | .orr => m.orr
  | .xnr => m.xnr
  | .nan => m.nan
  | .nor => m.nor
  | .bsl => m.bsl
  | .bsr => m.bsr
  | .not => m.not
  | .psh => m.psh
  | .teq => m.teq
  | .tnq => m.tnq
  | .tgt => m.tgt
  | .tlt => m.tlt
  | .tge => m.tge
  | .tle => m.tle
  | .jmp => m.jmp
  | .jeq => m.jeq
  | .jnq => m.jnq
  | .jgt => m.jgt
  | .jlt => m.jlt
  | .jge => m.jge
  | .jle => m.jle
  | .pop => m.pop
  | .peq => m.peq
  | .pnq => m.pnq
  | .pgt => m.pgt
  | .plt => m.plt
  | .pge => m.pge
  | .ple => m.ple
  | .opIgnore => m.opIgnore
  | .opUnignore => m.opUnignore

/-- `CFG_JLE` and `CFG_COND_RETURN` (R6): whether the opcodes concerned are executed or rejected. -/
inductive Support where
  | implemented
  | rejected
  deriving DecidableEq, Repr

/-- `DIV0_POLICY` (R6, 43_arith_bitwise.md R121): what a zero divisor does. -/
inductive DivZeroPolicy where
  /-- the step raises `DIVIDE_BY_ZERO` -/
  | fault
  /-- `div` gives 255 and `mod` the dividend -/
  | value
  deriving DecidableEq, Repr

/-- The OPEN parameters of R6, but for the ROM, which is a field of the state. -/
structure Config where
  /-- `OPCODE_MAP` -/
  opcodes : OpcodeMap
  /-- `STACK_CAP`, the number of call-stack entries -/
  stackCap : Nat
  /-- `CFG_COND_RETURN`, about `peq pnq pgt plt pge ple` -/
  condReturn : Support
  /-- `CFG_JLE`, about `jle` -/
  jle : Support
  /-- `DIV0_POLICY`, about `div` and `mod` -/
  divZero : DivZeroPolicy
  deriving DecidableEq, Repr

/-- `MEM_SIZE` (R6, 10_state.md R22): the bytes of data memory. -/
def memSize : Nat := 65536

/-- The bound of `ROM_LEN` (R6, 70_reset_and_hazards.md R213). -/
def maxRomLen : Nat := 65536

end Sys2Proof
end

