-- ==== Sys2Proof/Syntax.lean ====
section
/-! DEFINITION. The instruction set: one constructor per row of spec/opcode_table.json, its operands
in the slot order of the formats of 30_encoding.md R52. A `REGISTER` operand is the whole operand
byte: the machine masks it to 3 bits at every register access (10_state.md R12). -/

namespace Sys2Proof

/-- An instruction with its operands: a `REGISTER` or `BYTE` operand is a byte, a `WORD` or `LABEL`
operand 16 bits (R51). -/
inductive Instr where
  -- Control (41_control.md R90 to R92).
  | nop
  | nxt
  | hlt
  -- Moves (42_move.md R95 to R99): destination operand first, source second.
  | smr (addr : Addr) (s : Byte)
  | srm (d : Byte) (addr : Addr)
  | srb (d imm : Byte)
  | smb (addr : Addr) (imm : Byte)
  | srr (d s : Byte)
  -- Three-register operations (43_arith_bitwise.md R105 to R118): sources `a`, `b`, destination `d`.
  | add (a b d : Byte)
  | sub (a b d : Byte)
  | mul (a b d : Byte)
  | div (a b d : Byte)
  | mod (a b d : Byte)
  | xor (a b d : Byte)
  | and (a b d : Byte)
  | orr (a b d : Byte)
  | xnr (a b d : Byte)
  | nan (a b d : Byte)
  | nor (a b d : Byte)
  | bsl (a b d : Byte)
  | bsr (a b d : Byte)
  -- Complement (43_arith_bitwise.md R119): source `s`, destination `d`.
  | not (s d : Byte)
  -- Calls and jumps (44_call_branch.md R130 to R145): compared registers `a`, `b`, then the target.
  | psh (target : Addr)
  | teq (a b : Byte) (target : Addr)
  | tnq (a b : Byte) (target : Addr)
  | tgt (a b : Byte) (target : Addr)
  | tlt (a b : Byte) (target : Addr)
  | tge (a b : Byte) (target : Addr)
  | tle (a b : Byte) (target : Addr)
  | jmp (target : Addr)
  | jeq (a b : Byte) (target : Addr)
  | jnq (a b : Byte) (target : Addr)
  | jgt (a b : Byte) (target : Addr)
  | jlt (a b : Byte) (target : Addr)
  | jge (a b : Byte) (target : Addr)
  | jle (a b : Byte) (target : Addr)
  -- Returns (45_return.md R155 to R163): compared registers `a`, `b`.
  | pop
  | peq (a b : Byte)
  | pnq (a b : Byte)
  | pgt (a b : Byte)
  | plt (a b : Byte)
  | pge (a b : Byte)
  | ple (a b : Byte)
  -- Data-skip sentinels (46_data_skip.md R170, R171).
  | opIgnore
  | opUnignore
  deriving DecidableEq, Repr

end Sys2Proof
end

