-- ==== Sys2Proof/WellFormed.lean ====
section
/-! DEFINITION. Which instructions a configuration admits, and which configurations are instances of
this hardware. An instruction whose opcode the configuration rejects is ill-formed (30_encoding.md
R59); no operand byte of any instruction is illegal (10_state.md R12, R56, R57), so nothing else is
checked. -/

namespace Sys2Proof

/-- The configuration admits the instruction: `jle` is ill-formed under `CFG_JLE = rejected`
(44_call_branch.md R145), the conditional returns under `CFG_COND_RETURN = rejected` (45_return.md
R163). -/
def Instr.wellFormed (cfg : Config) : Instr → Bool
  | .nop => true
  | .nxt => true
  | .hlt => true
  | .smr _ _ => true
  | .srm _ _ => true
  | .srb _ _ => true
  | .smb _ _ => true
  | .srr _ _ => true
  | .add _ _ _ => true
  | .sub _ _ _ => true
  | .mul _ _ _ => true
  | .div _ _ _ => true
  | .mod _ _ _ => true
  | .xor _ _ _ => true
  | .and _ _ _ => true
  | .orr _ _ _ => true
  | .xnr _ _ _ => true
  | .nan _ _ _ => true
  | .nor _ _ _ => true
  | .bsl _ _ _ => true
  | .bsr _ _ _ => true
  | .not _ _ => true
  | .psh _ => true
  | .teq _ _ _ => true
  | .tnq _ _ _ => true
  | .tgt _ _ _ => true
  | .tlt _ _ _ => true
  | .tge _ _ _ => true
  | .tle _ _ _ => true
  | .jmp _ => true
  | .jeq _ _ _ => true
  | .jnq _ _ _ => true
  | .jgt _ _ _ => true
  | .jlt _ _ _ => true
  | .jge _ _ _ => true
  | .jle _ _ _ => decide (cfg.jle = .implemented)
  | .pop => true
  | .peq _ _ => decide (cfg.condReturn = .implemented)
  | .pnq _ _ => decide (cfg.condReturn = .implemented)
  | .pgt _ _ => decide (cfg.condReturn = .implemented)
  | .plt _ _ => decide (cfg.condReturn = .implemented)
  | .pge _ _ => decide (cfg.condReturn = .implemented)
  | .ple _ _ => decide (cfg.condReturn = .implemented)
  | .opIgnore => true
  | .opUnignore => true

/-- R53(a): the 45 opcode bytes are pairwise distinct. -/
abbrev OpcodeMap.Distinct (m : OpcodeMap) : Prop := (Opcode.all.map m.code).Nodup

/-- R53(b): every call opcode is below `JMP_THRESHOLD`, every jump opcode at or above it. -/
abbrev OpcodeMap.Threshold (m : OpcodeMap) : Prop :=
  (∀ op ∈ Opcode.calls, (m.code op).toNat < m.jmpThreshold.toNat) ∧
  (∀ op ∈ Opcode.jumps, m.jmpThreshold.toNat ≤ (m.code op).toNat)

/-- An instance of the hardware's parameters: an opcode map that meets R53, and a call stack of at
least one entry (R6). R53(c), the one-to-one correspondence of calls and jumps by predicate, holds
of every map: the opcodes themselves are paired by name. -/
abbrev Config.WF (cfg : Config) : Prop :=
  cfg.opcodes.Distinct ∧ cfg.opcodes.Threshold ∧ 1 ≤ cfg.stackCap

end Sys2Proof
end

