-- ==== Sys2Proof/Decode.lean ====
section
/-! DEFINITION. The default parameter values, instruction formats and lengths, the decoder and the
encoder (30_encoding.md). The decoder is total on any list of bytes: it answers an instruction with
the bytes after it, or the byte that is no executable opcode, or that the ROM ends inside the
instruction. -/

namespace Sys2Proof

/-! ### Default parameters -/

/-- The default opcode map, the table of 30_encoding.md R54 (decision D1 of 92_eei_decisions.md). -/
def OpcodeMap.specDefault : OpcodeMap where
  nop := 0x00
  nxt := 0x01
  hlt := 0x02
  smr := 0x10
  srm := 0x11
  srb := 0x12
  smb := 0x13
  srr := 0x14
  add := 0x20
  sub := 0x21
  mul := 0x22
  div := 0x23
  mod := 0x24
  xor := 0x25
  and := 0x26
  orr := 0x27
  xnr := 0x28
  nan := 0x29
  nor := 0x2A
  bsl := 0x2B
  bsr := 0x2C
  not := 0x30
  psh := 0x40
  teq := 0x41
  tnq := 0x42
  tgt := 0x43
  tlt := 0x44
  tge := 0x45
  tle := 0x46
  jmp := 0x48
  jeq := 0x49
  jnq := 0x4A
  jgt := 0x4B
  jlt := 0x4C
  jge := 0x4D
  jle := 0x4E
  pop := 0x50
  peq := 0x51
  pnq := 0x52
  pgt := 0x53
  plt := 0x54
  pge := 0x55
  ple := 0x56
  opIgnore := 0xFE
  opUnignore := 0xFF
  jmpThreshold := 0x48

/-- The default configuration (00_scope.md R6): the map of R54, 256 call-stack entries (D10), every
opcode implemented (D5, D6), a zero divisor faults (D7). -/
def Config.specDefault : Config where
  opcodes := OpcodeMap.specDefault
  stackCap := 256
  condReturn := .implemented
  jle := .implemented
  divZero := .fault

/-! ### Formats and lengths -/

/-- The nine instruction formats of R52, named as there: `R` a register byte, `B` an immediate byte,
`W` a word, `L` a label. -/
inductive Format where
  | Z | RB | RR | L | RW | WR | WB | RRR | RRL
  deriving DecidableEq, Repr

/-- The length in bytes of an instruction of a format, opcode byte included (R52). -/
def Format.length : Format → Nat
  | .Z => 1
  | .RB => 3
  | .RR => 3
  | .L => 3
  | .RW => 4
  | .WR => 4
  | .WB => 4
  | .RRR => 4
  | .RRL => 5

/-- The format of each opcode (R52, R54). -/
def Opcode.format : Opcode → Format
  | .nop => .Z
  | .nxt => .Z
  | .hlt => .Z
  | .smr => .WR
  | .srm => .RW
  | .srb => .RB
  | .smb => .WB
  | .srr => .RR
  | .add => .RRR
  | .sub => .RRR
  | .mul => .RRR
  | .div => .RRR
  | .mod => .RRR
  | .xor => .RRR
  | .and => .RRR
  | .orr => .RRR
  | .xnr => .RRR
  | .nan => .RRR
  | .nor => .RRR
  | .bsl => .RRR
  | .bsr => .RRR
  | .not => .RR
  | .psh => .L
  | .teq => .RRL
  | .tnq => .RRL
  | .tgt => .RRL
  | .tlt => .RRL
  | .tge => .RRL
  | .tle => .RRL
  | .jmp => .L
  | .jeq => .RRL
  | .jnq => .RRL
  | .jgt => .RRL
  | .jlt => .RRL
  | .jge => .RRL
  | .jle => .RRL
  | .pop => .Z
  | .peq => .RR
  | .pnq => .RR
  | .pgt => .RR
  | .plt => .RR
  | .pge => .RR
  | .ple => .RR
  | .opIgnore => .Z
  | .opUnignore => .Z

/-- `len(op)` of R58: the opcode alone gives the length. -/
def Opcode.length (op : Opcode) : Nat := op.format.length

/-- The opcode of an instruction. -/
def Instr.opcode : Instr → Opcode
  | .nop => .nop
  | .nxt => .nxt
  | .hlt => .hlt
  | .smr _ _ => .smr
  | .srm _ _ => .srm
  | .srb _ _ => .srb
  | .smb _ _ => .smb
  | .srr _ _ => .srr
  | .add _ _ _ => .add
  | .sub _ _ _ => .sub
  | .mul _ _ _ => .mul
  | .div _ _ _ => .div
  | .mod _ _ _ => .mod
  | .xor _ _ _ => .xor
  | .and _ _ _ => .and
  | .orr _ _ _ => .orr
  | .xnr _ _ _ => .xnr
  | .nan _ _ _ => .nan
  | .nor _ _ _ => .nor
  | .bsl _ _ _ => .bsl
  | .bsr _ _ _ => .bsr
  | .not _ _ => .not
  | .psh _ => .psh
  | .teq _ _ _ => .teq
  | .tnq _ _ _ => .tnq
  | .tgt _ _ _ => .tgt
  | .tlt _ _ _ => .tlt
  | .tge _ _ _ => .tge
  | .tle _ _ _ => .tle
  | .jmp _ => .jmp
  | .jeq _ _ _ => .jeq
  | .jnq _ _ _ => .jnq
  | .jgt _ _ _ => .jgt
  | .jlt _ _ _ => .jlt
  | .jge _ _ _ => .jge
  | .jle _ _ _ => .jle
  | .pop => .pop
  | .peq _ _ => .peq
  | .pnq _ _ => .pnq
  | .pgt _ _ => .pgt
  | .plt _ _ => .plt
  | .pge _ _ => .pge
  | .ple _ _ => .ple
  | .opIgnore => .opIgnore
  | .opUnignore => .opUnignore

/-! ### Operand bytes -/

/-- A `WORD` or `LABEL` operand from its two bytes, the first the more significant (R57,
20_memory.md R33). -/
def wordOf (hi lo : Byte) : Addr := BitVec.ofNat 16 (hi.toNat * 256 + lo.toNat)

/-- The more significant byte of a word, which the instruction holds first (R33). -/
def highByte (w : Addr) : Byte := BitVec.ofNat 8 (w.toNat / 256)

/-- The less significant byte of a word, which the instruction holds second (R33). -/
def lowByte (w : Addr) : Byte := BitVec.ofNat 8 (w.toNat % 256)

/-! ### Decoder -/

/-- What decoding answers. -/
inductive Decoded where
  /-- an instruction, and the bytes after it -/
  | instr (i : Instr) (rest : List Byte)
  /-- the byte is not an executable opcode (40_step_dispatch.md R74) -/
  | invalidOpcode (b : Byte)
  /-- the bytes end inside the instruction, or before it (R72, R75) -/
  | endOfRom
  deriving DecidableEq, Repr

/-- The opcode whose byte is `b` under the configuration's map; under a map that meets R53 there is
at most one. -/
def Config.opcodeOf (cfg : Config) (b : Byte) : Option Opcode :=
  Opcode.all.find? (fun op => cfg.opcodes.code op == b)

/-- The opcodes that the configuration rejects (R59, 44_call_branch.md R145, 45_return.md R163).
`OP_UNIGNORE` is not among them: it decodes, and it is its meaning that faults in normal mode. -/
def Config.rejects (cfg : Config) : Opcode → Bool
  | .nop => false
  | .nxt => false
  | .hlt => false
  | .smr => false
  | .srm => false
  | .srb => false
  | .smb => false
  | .srr => false
  | .add => false
  | .sub => false
  | .mul => false
  | .div => false
  | .mod => false
  | .xor => false
  | .and => false
  | .orr => false
  | .xnr => false
  | .nan => false
  | .nor => false
  | .bsl => false
  | .bsr => false
  | .not => false
  | .psh => false
  | .teq => false
  | .tnq => false
  | .tgt => false
  | .tlt => false
  | .tge => false
  | .tle => false
  | .jmp => false
  | .jeq => false
  | .jnq => false
  | .jgt => false
  | .jlt => false
  | .jge => false
  | .jle => cfg.jle == .rejected
  | .pop => false
  | .peq => cfg.condReturn == .rejected
  | .pnq => cfg.condReturn == .rejected
  | .pgt => cfg.condReturn == .rejected
  | .plt => cfg.condReturn == .rejected
  | .pge => cfg.condReturn == .rejected
  | .ple => cfg.condReturn == .rejected
  | .opIgnore => false
  | .opUnignore => false

/-- No operand bytes (format `Z`). -/
def readZ (i : Instr) (bs : List Byte) : Decoded := .instr i bs

/-- Two operand bytes, each an operand of its own (formats `RB` and `RR`). -/
def readTwo (mk : Byte → Byte → Instr) : List Byte → Decoded
  | x :: y :: rest => .instr (mk x y) rest
  | _ => .endOfRom

/-- One word (format `L`). -/
def readL (mk : Addr → Instr) : List Byte → Decoded
  | hi :: lo :: rest => .instr (mk (wordOf hi lo)) rest
  | _ => .endOfRom

/-- A byte, then a word (format `RW`). -/
def readRW (mk : Byte → Addr → Instr) : List Byte → Decoded
  | x :: hi :: lo :: rest => .instr (mk x (wordOf hi lo)) rest
  | _ => .endOfRom

/-- A word, then a byte (formats `WR` and `WB`). -/
def readWordByte (mk : Addr → Byte → Instr) : List Byte → Decoded
  | hi :: lo :: x :: rest => .instr (mk (wordOf hi lo) x) rest
  | _ => .endOfRom

/-- Three register bytes (format `RRR`). -/
def readRRR (mk : Byte → Byte → Byte → Instr) : List Byte → Decoded
  | a :: b :: d :: rest => .instr (mk a b d) rest
  | _ => .endOfRom

/-- Two register bytes, then a word (format `RRL`). -/
def readRRL (mk : Byte → Byte → Addr → Instr) : List Byte → Decoded
  | a :: b :: hi :: lo :: rest => .instr (mk a b (wordOf hi lo)) rest
  | _ => .endOfRom

/-- The operands of an opcode, from the bytes after it, in the slot order of R54. -/
def decodeOperands : Opcode → List Byte → Decoded
  | .nop => readZ .nop
  | .nxt => readZ .nxt
  | .hlt => readZ .hlt
  | .smr => readWordByte .smr
  | .srm => readRW .srm
  | .srb => readTwo .srb
  | .smb => readWordByte .smb
  | .srr => readTwo .srr
  | .add => readRRR .add
  | .sub => readRRR .sub
  | .mul => readRRR .mul
  | .div => readRRR .div
  | .mod => readRRR .mod
  | .xor => readRRR .xor
  | .and => readRRR .and
  | .orr => readRRR .orr
  | .xnr => readRRR .xnr
  | .nan => readRRR .nan
  | .nor => readRRR .nor
  | .bsl => readRRR .bsl
  | .bsr => readRRR .bsr
  | .not => readTwo .not
  | .psh => readL .psh
  | .teq => readRRL .teq
  | .tnq => readRRL .tnq
  | .tgt => readRRL .tgt
  | .tlt => readRRL .tlt
  | .tge => readRRL .tge
  | .tle => readRRL .tle
  | .jmp => readL .jmp
  | .jeq => readRRL .jeq
  | .jnq => readRRL .jnq
  | .jgt => readRRL .jgt
  | .jlt => readRRL .jlt
  | .jge => readRRL .jge
  | .jle => readRRL .jle
  | .pop => readZ .pop
  | .peq => readTwo .peq
  | .pnq => readTwo .pnq
  | .pgt => readTwo .pgt
  | .plt => readTwo .plt
  | .pge => readTwo .pge
  | .ple => readTwo .ple
  | .opIgnore => readZ .opIgnore
  | .opUnignore => readZ .opUnignore

/-- Decode the bytes at the cursor (R50 to R59; 40_step_dispatch.md R72, R74, R75): an opcode byte
that is not executable is refused before any operand byte is looked for. -/
def decode (cfg : Config) : List Byte → Decoded
  | [] => .endOfRom
  | b :: bs =>
    match cfg.opcodeOf b with
    | none => .invalidOpcode b
    | some op => if cfg.rejects op then .invalidOpcode b else decodeOperands op bs

/-! ### Encoder -/

/-- The bytes of an instruction under an opcode map: the opcode byte, then the operand slots in the
order of R52, words most significant byte first (R57). -/
def encode (m : OpcodeMap) : Instr → List Byte
  | .nop => [m.nop]
  | .nxt => [m.nxt]
  | .hlt => [m.hlt]
  | .smr addr s => [m.smr, highByte addr, lowByte addr, s]
  | .srm d addr => [m.srm, d, highByte addr, lowByte addr]
  | .srb d imm => [m.srb, d, imm]
  | .smb addr imm => [m.smb, highByte addr, lowByte addr, imm]
  | .srr d s => [m.srr, d, s]
  | .add a b d => [m.add, a, b, d]
  | .sub a b d => [m.sub, a, b, d]
  | .mul a b d => [m.mul, a, b, d]
  | .div a b d => [m.div, a, b, d]
  | .mod a b d => [m.mod, a, b, d]
  | .xor a b d => [m.xor, a, b, d]
  | .and a b d => [m.and, a, b, d]
  | .orr a b d => [m.orr, a, b, d]
  | .xnr a b d => [m.xnr, a, b, d]
  | .nan a b d => [m.nan, a, b, d]
  | .nor a b d => [m.nor, a, b, d]
  | .bsl a b d => [m.bsl, a, b, d]
  | .bsr a b d => [m.bsr, a, b, d]
  | .not s d => [m.not, s, d]
  | .psh target => [m.psh, highByte target, lowByte target]
  | .teq a b target => [m.teq, a, b, highByte target, lowByte target]
  | .tnq a b target => [m.tnq, a, b, highByte target, lowByte target]
  | .tgt a b target => [m.tgt, a, b, highByte target, lowByte target]
  | .tlt a b target => [m.tlt, a, b, highByte target, lowByte target]
  | .tge a b target => [m.tge, a, b, highByte target, lowByte target]
  | .tle a b target => [m.tle, a, b, highByte target, lowByte target]
  | .jmp target => [m.jmp, highByte target, lowByte target]
  | .jeq a b target => [m.jeq, a, b, highByte target, lowByte target]
  | .jnq a b target => [m.jnq, a, b, highByte target, lowByte target]
  | .jgt a b target => [m.jgt, a, b, highByte target, lowByte target]
  | .jlt a b target => [m.jlt, a, b, highByte target, lowByte target]
  | .jge a b target => [m.jge, a, b, highByte target, lowByte target]
  | .jle a b target => [m.jle, a, b, highByte target, lowByte target]
  | .pop => [m.pop]
  | .peq a b => [m.peq, a, b]
  | .pnq a b => [m.pnq, a, b]
  | .pgt a b => [m.pgt, a, b]
  | .plt a b => [m.plt, a, b]
  | .pge a b => [m.pge, a, b]
  | .ple a b => [m.ple, a, b]
  | .opIgnore => [m.opIgnore]
  | .opUnignore => [m.opUnignore]

/-! ### The opcode table's numbering -/

/-- The length of the longest instruction (R50). -/
def maxInstrLen : Nat := 5

/-- The bytes of an instruction given as the number `w`, of which the low `nbits` bits count: byte `k`
is bits 8k+7 to 8k, and bytes past `nbits` up to the longest instruction are 0. -/
def tableBytes (nbits w : Nat) : List Byte :=
  (List.range maxInstrLen).map (fun k => BitVec.ofNat 8 ((w % 2 ^ nbits) / 2 ^ (8 * k)))

/-- The instruction that the decoder reads, under the default configuration, from an instruction given
as spec/opcode_table.json numbers its bits. -/
def decodeTableWord (nbits w : Nat) : Option Instr :=
  match decode Config.specDefault (tableBytes nbits w) with
  | .instr i _ => some i
  | .invalidOpcode _ => none
  | .endOfRom => none

end Sys2Proof
end

