-- ==== Sys2Proof/Machine/State.lean ====
section
/-! DEFINITION. The state of one machine instance as plain data (10_state.md R10), the reasons a step
can stop outside the spec's own statuses, and the state after reset (R26).

The spec's faults (`INVALID_INSTRUCTION`, `END_OF_ROM`, `STACK_OUT_OF_BOUNDS`, `DIVIDE_BY_ZERO`) are no
stops of the model: each is an entry the spec describes (`HALT` set, nothing else changed, the status
delivered), and the model takes it as a next state. -/

namespace Sys2Proof.Machine

/-- The statuses a transaction delivers (00_scope.md R9, 10_state.md R24). -/
inductive Status where
  /-- `CONTINUE` -/
  | continue_
  /-- `NEXT_FRAME` -/
  | nextFrame
  /-- `HALTED` -/
  | halted
  /-- `INVALID_INSTRUCTION` -/
  | invalidInstruction
  /-- `END_OF_ROM` -/
  | endOfRom
  /-- `MEMORY_OUT_OF_BOUNDS` -/
  | memoryOutOfBounds
  /-- `STACK_OUT_OF_BOUNDS` -/
  | stackOutOfBounds
  /-- `DIVIDE_BY_ZERO` -/
  | divideByZero
  deriving DecidableEq, Repr

/-- The data memory (R22): the bytes that are not 0, addresses strictly rising. An address that is not
listed reads as 0, the reset value of every byte (R26). -/
structure Memory where
  cells : List Host.Cell
  deriving DecidableEq, Repr

/-- Why a step could stop with a fault. There is NO such reason on this hardware: every fault the spec
names is taken (see above), every data address exists (20_memory.md R32), and every access to the
call stack is checked by its count (R20). Nobody raises a `Fault`; that is safe, since a claim that
the machine goes on is proved of the model's own next state. -/
inductive Fault where
  deriving DecidableEq, Repr

/-- Why a step has no meaning. -/
inductive Refusal where
  /-- The instruction of this mnemonic has no meaning in the model. Raised by no arm of `exec`; safe. -/
  | notModelled (mnemonic : String)
  /-- There is no machine: its ROM is empty, and construction fails for an empty ROM
  (70_reset_and_hazards.md R213). Raised by a step; safe, since no such machine exists. -/
  | noRom
  /-- There is no machine: its ROM is longer than 65536 bytes, and the spec refuses such a ROM (R213,
  decision D12). Raised by a step; safe, since no such machine exists. -/
  | romTooLong
  deriving DecidableEq, Repr

/-- One machine instance. -/
structure State where
  /-- The parameters the instance was built with (00_scope.md R6). Fixed for its life. -/
  cfg : Config
  /-- The ROM, fixed for the life of the instance (R23); `ROM_LEN` is its length. -/
  rom : List Byte
  /-- The ROM cursor (R14). -/
  pc : Cursor
  /-- `flags.HALT` (R17). -/
  halt : Bool
  /-- `flags.IGNORING` (R18). -/
  ignoring : Bool
  /-- The registers `x[0]` to `x[7]` (R11). -/
  regs : Vector Byte 8
  /-- The data memory (R22). -/
  mem : Memory
  /-- The slots `stack[0]` to `stack[STACK_CAP-1]` of the call stack, live and dead (R20, R21). -/
  stack : List Addr
  /-- The count of live call-stack entries (R20). -/
  sp : Nat
  /-- The model's own field: the status the most recent step delivered to the host, the output
  `status` of R24; `none` (no `status_valid`) before the first step. No instruction reads it. -/
  status : Option Status
  deriving DecidableEq, Repr

/-- The state right after `construct` with a configuration and a ROM (R26). The slots of the call
stack, which R26 leaves unspecified, hold 0 (DESIGN CHOICE, log entry 2). -/
def State.initial (cfg : Config) (rom : List Byte) : State where
  cfg := cfg
  rom := rom
  pc := 0
  halt := false
  ignoring := false
  regs := Vector.replicate 8 0
  mem := ⟨[]⟩
  stack := List.replicate cfg.stackCap 0
  sp := 0
  status := none

/-- The machine right after reset (R26) with the default configuration and no ROM supplied yet: a
program comes from outside, through `construct` (R24; log entry 3). -/
def State.reset : State := State.initial Config.specDefault []

end Sys2Proof.Machine
end

