-- ==== Sys2Proof/Machine/Ops.lean ====
section
/-! DEFINITION. The named operations over the state that every meaning is written with (00_scope.md
R8): field updates, status delivery, `raise`, cursor advance, data memory, call stack. -/

namespace Sys2Proof.Machine

/-! ### Field updates -/

/-- Write the ROM cursor. -/
def State.withPc (s : State) (v : Cursor) : State := { s with pc := v }

/-- Write `flags.HALT`. -/
def State.withHalt (s : State) (v : Bool) : State := { s with halt := v }

/-- Write `flags.IGNORING`. -/
def State.withIgnoring (s : State) (v : Bool) : State := { s with ignoring := v }

/-- Replace the register file. -/
def State.withRegs (s : State) (v : Vector Byte 8) : State := { s with regs := v }

/-- Replace the data memory. -/
def State.withMem (s : State) (v : Memory) : State := { s with mem := v }

/-- Replace the call stack: its slots and its count. -/
def State.withStack (s : State) (slots : List Addr) (count : Nat) : State :=
  { s with stack := slots, sp := count }

/-- Deliver a status to the host (R24). -/
def State.deliver (s : State) (st : Status) : State := { s with status := some st }

/-- Replace the ROM: construction alone does so (R23). -/
def State.withRom (s : State) (v : List Byte) : State := { s with rom := v }

/-! ### Statuses -/

/-- The 3-bit number of a status (10_state.md R24, decision D9). -/
def Status.code : Status → BitVec 3
  | .continue_ => 0
  | .nextFrame => 1
  | .halted => 2
  | .invalidInstruction => 3
  | .endOfRom => 4
  | .memoryOutOfBounds => 5
  | .stackOutOfBounds => 6
  | .divideByZero => 7

/-- The fault statuses (60_exceptions.md R180). -/
def Status.isFault : Status → Bool
  | .continue_ => false
  | .nextFrame => false
  | .halted => false
  | .invalidInstruction => true
  | .endOfRom => true
  | .memoryOutOfBounds => true
  | .stackOutOfBounds => true
  | .divideByZero => true

/-- The terminal statuses: all but `CONTINUE` and `NEXT_FRAME` (glossary of 00_scope.md). -/
def Status.isTerminal : Status → Bool
  | .continue_ => false
  | .nextFrame => false
  | .halted => true
  | .invalidInstruction => true
  | .endOfRom => true
  | .memoryOutOfBounds => true
  | .stackOutOfBounds => true
  | .divideByZero => true

/-! ### Taking a fault

There is no return from a fault (60_exceptions.md R185): nothing but construction clears `HALT`. -/

/-- `raise S` (00_scope.md R8, 60_exceptions.md R183): from the state at the start of the step, `HALT`
is set, nothing else changes, and the step delivers `S`. -/
def raise (st : Status) (s : State) : Host.Outcome State Fault Refusal :=
  .next ((s.withHalt true).deliver st)

/-- End a step from its start-of-step state `s`: the effect's state when it completed, `raise` from
`s` when it faulted, so that a fault discards every write of the step (40_step_dispatch.md R76, R82). -/
def commit (s : State) (effect : Except Status State) : Host.Outcome State Fault Refusal :=
  match effect with
  | .ok t => .next t
  | .error st => raise st s

/-! ### Cursor -/

/-- Move the cursor on by `n` bytes. -/
def State.advance (s : State) (n : Nat) : State := s.withPc (s.pc + BitVec.ofNat 17 n)

/-- The trailing auto-advance past an instruction and the status `CONTINUE` (40_step_dispatch.md R76). -/
def State.retire (s : State) (op : Opcode) : State := (s.advance op.length).deliver .continue_

/-- Move the cursor to a 16-bit target, without an auto-advance, and deliver `CONTINUE`
(44_call_branch.md R130, R146: the target is not checked). -/
def State.jumpTo (s : State) (target : Addr) : State :=
  (s.withPc (target.setWidth 17)).deliver .continue_

/-! ### Data memory -/

/-- The byte listed for an address, or 0 where none is: the reset value (10_state.md R26). -/
def readCells (a : Nat) : List Host.Cell → Byte
  | [] => 0#8
  | (b, w) :: rest => if a = b then w else readCells a rest

/-- A cell before a list of cells, left out when its byte is what an unlisted address reads as. -/
def consCell (a : Nat) (v : Byte) (rest : List Host.Cell) : List Host.Cell :=
  if v = 0#8 then rest else (a, v) :: rest

/-- Write a byte, keeping the canonical form. -/
def writeCells (a : Nat) (v : Byte) : List Host.Cell → List Host.Cell
  | [] => consCell a v []
  | (b, w) :: rest =>
    if a < b then consCell a v ((b, w) :: rest)
    else if a = b then consCell a v rest
    else (b, w) :: writeCells a v rest

/-- The byte of data memory at an address. -/
def Memory.read (m : Memory) (a : Addr) : Byte := readCells a.toNat m.cells

/-- Data memory after a byte is written at an address. -/
def Memory.write (m : Memory) (a : Addr) (v : Byte) : Memory := ⟨writeCells a.toNat v m.cells⟩

/-- The canonical form: addresses strictly rising and inside the address space (R22), no byte listed
that an unlisted address reads as. -/
def Memory.wf (m : Memory) : Bool :=
  decide (m.cells.Pairwise (fun c d => c.1 < d.1)) &&
    m.cells.all (fun c => decide (c.1 < memSize) && decide (c.2 ≠ 0#8))

/-- `MemRead(addr, 1)` of 20_memory.md R32, its bound check included. -/
def memRead (addr : Addr) (s : State) : Except Status Byte :=
  if memSize ≤ addr.toNat then .error .memoryOutOfBounds else .ok (s.mem.read addr)

/-- `MemWrite(addr, 1, v)` of 20_memory.md R32, its bound check included. -/
def memWrite (addr : Addr) (v : Byte) (s : State) : Except Status State :=
  if memSize ≤ addr.toNat then .error .memoryOutOfBounds else .ok (s.withMem (s.mem.write addr v))

/-! ### Call stack -/

/-- `Push(v)` of 00_scope.md R8 (10_state.md R20): faults when the stack is full. -/
def push (v : Addr) (s : State) : Except Status State :=
  if s.sp = s.cfg.stackCap then .error .stackOutOfBounds
  else .ok (s.withStack (s.stack.set s.sp v) (s.sp + 1))

/-- `Pop()` of 00_scope.md R8 (10_state.md R20): faults when the stack is empty, otherwise answers the
top entry and the state with the count lowered. The slot keeps its value (R21). -/
def pop (s : State) : Except Status (Addr × State) :=
  if s.sp = 0 then .error .stackOutOfBounds
  else .ok (s.stack.getD (s.sp - 1) 0, s.withStack s.stack (s.sp - 1))

end Sys2Proof.Machine
end

