-- ==== Sys2Proof/Machine/Flags.lean ====
section
/-! DEFINITION. Conditions. The machine has no arithmetic flag and no condition code (10_state.md R19):
a conditional call, jump or return compares two registers named in the instruction itself, by one of
the predicates of 44_call_branch.md R131. The two flags the machine has, `HALT` and `IGNORING`, are
fields of the state that `State.withHalt` and `State.withIgnoring` write. -/

namespace Sys2Proof.Machine

/-- The condition `cc` of R131. -/
inductive Cond where
  | always | eq | nq | gt | lt | ge | le
  deriving DecidableEq, Repr

/-- `cond(cc, va, vb)` of R131, on the unsigned values of the two bytes. -/
def Cond.holds (cc : Cond) (va vb : Byte) : Bool :=
  match cc with
  | .always => true
  | .eq => decide (va.toNat = vb.toNat)
  | .nq => decide (va.toNat ≠ vb.toNat)
  | .gt => decide (va.toNat > vb.toNat)
  | .lt => decide (va.toNat < vb.toNat)
  | .ge => decide (va.toNat ≥ vb.toNat)
  | .le => decide (va.toNat ≤ vb.toNat)

end Sys2Proof.Machine
end

