-- ==== Sys2Proof/Machine/Operands.lean ====
section
/-! DEFINITION. Register operands (10_state.md R11 to R13) and the functions of the arithmetic,
bitwise, shift and unary instructions (43_arith_bitwise.md R106 to R121). -/

namespace Sys2Proof.Machine

/-! ### Registers -/

/-- The register number that an operand byte selects: its low three bits (R12, 30_encoding.md R55). -/
def regIndex (b : Byte) : Fin 8 := Fin.ofNat 8 (b &&& 0x07#8).toNat

/-- `x[b]`, the masked read of 00_scope.md R8. -/
def State.reg (s : State) (b : Byte) : Byte := s.regs.get (regIndex b)

/-- `x[b] <- v`, the masked write of 00_scope.md R8. Register 0 is an ordinary register (R13). -/
def State.setReg (s : State) (b : Byte) (v : Byte) : State :=
  s.withRegs (s.regs.set (regIndex b).val v (regIndex b).isLt)

/-! ### Functions of two bytes -/

/-- `add` (R106): the sum modulo 256. -/
def aluAdd (va vb : Byte) : Byte := va + vb

/-- `sub` (R107): the difference modulo 256, minuend first. -/
def aluSub (va vb : Byte) : Byte := va - vb

/-- `mul` (R108): the low 8 bits of the product. -/
def aluMul (va vb : Byte) : Byte := va * vb

/-- `div` (R109, R121): the unsigned quotient; a zero divisor by the policy. -/
def aluDiv (policy : DivZeroPolicy) (va vb : Byte) : Except Status Byte :=
  if vb = 0#8 then
    match policy with
    | .fault => .error .divideByZero
    | .value => .ok 255#8
  else .ok (va / vb)

/-- `mod` (R110, R121): the unsigned remainder; a zero divisor by the policy. -/
def aluMod (policy : DivZeroPolicy) (va vb : Byte) : Except Status Byte :=
  if vb = 0#8 then
    match policy with
    | .fault => .error .divideByZero
    | .value => .ok va
  else .ok (va % vb)

/-- `xor` (R111). -/
def aluXor (va vb : Byte) : Byte := va ^^^ vb

/-- `and` (R112). -/
def aluAnd (va vb : Byte) : Byte := va &&& vb

/-- `orr` (R113). -/
def aluOrr (va vb : Byte) : Byte := va ||| vb

/-- `xnr` (R114): the complement of the exclusive OR. -/
def aluXnr (va vb : Byte) : Byte := ~~~(va ^^^ vb)

/-- `nan` (R115, conflict C1): the complement of the OR, whatever the mnemonic suggests. -/
def aluNan (va vb : Byte) : Byte := ~~~(va ||| vb)

/-- `nor` (R116, conflict C1): the complement of the AND, whatever the mnemonic suggests. -/
def aluNor (va vb : Byte) : Byte := ~~~(va &&& vb)

/-- `bsl` (R117): shift left by the whole byte `vb`; 0 for counts of 8 or more. -/
def aluBsl (va vb : Byte) : Byte := va <<< vb.toNat

/-- `bsr` (R118): logical shift right by the whole byte `vb`; 0 for counts of 8 or more. -/
def aluBsr (va vb : Byte) : Byte := va >>> vb.toNat

/-- `not` (R119): the complement. -/
def aluNot (v : Byte) : Byte := ~~~v

end Sys2Proof.Machine
end

