-- ==== Sys2Proof/Machine/Arithmetic.lean ====
section
/-! DEFINITION. The three-register arithmetic, bitwise and shift instructions and the complement
(43_arith_bitwise.md). -/

namespace Sys2Proof.Machine

/-- The common rule of the three-register family (R105): both sources are read, then the destination
is written and the cursor moves past the 4 bytes. -/
def threeReg (op : Opcode) (f : Byte → Byte → Byte) (a b d : Byte) (s : State) :
    Host.Outcome State Fault Refusal :=
  .next ((s.setReg d (f (s.reg a) (s.reg b))).retire op)

/-- The rule of R105 for `div` and `mod`, whose function may raise (R121). -/
def threeRegMayRaise (op : Opcode) (f : Byte → Byte → Except Status Byte) (a b d : Byte)
    (s : State) : Host.Outcome State Fault Refusal :=
  commit s ((f (s.reg a) (s.reg b)).map (fun v => (s.setReg d v).retire op))

/-- `add a b d` (R106). -/
def execAdd (a b d : Byte) (s : State) : Host.Outcome State Fault Refusal :=
  threeReg .add aluAdd a b d s

/-- `sub a b d` (R107). -/
def execSub (a b d : Byte) (s : State) : Host.Outcome State Fault Refusal :=
  threeReg .sub aluSub a b d s

/-- `mul a b d` (R108). -/
def execMul (a b d : Byte) (s : State) : Host.Outcome State Fault Refusal :=
  threeReg .mul aluMul a b d s

/-- `div a b d` (R109, R121). -/
def execDiv (a b d : Byte) (s : State) : Host.Outcome State Fault Refusal :=
  threeRegMayRaise .div (aluDiv s.cfg.divZero) a b d s

/-- `mod a b d` (R110, R121). -/
def execMod (a b d : Byte) (s : State) : Host.Outcome State Fault Refusal :=
  threeRegMayRaise .mod (aluMod s.cfg.divZero) a b d s

/-- `xor a b d` (R111). -/
def execXor (a b d : Byte) (s : State) : Host.Outcome State Fault Refusal :=
  threeReg .xor aluXor a b d s

/-- `and a b d` (R112). -/
def execAnd (a b d : Byte) (s : State) : Host.Outcome State Fault Refusal :=
  threeReg .and aluAnd a b d s

/-- `orr a b d` (R113). -/
def execOrr (a b d : Byte) (s : State) : Host.Outcome State Fault Refusal :=
  threeReg .orr aluOrr a b d s

/-- `xnr a b d` (R114). -/
def execXnr (a b d : Byte) (s : State) : Host.Outcome State Fault Refusal :=
  threeReg .xnr aluXnr a b d s

/-- `nan a b d` (R115). -/
def execNan (a b d : Byte) (s : State) : Host.Outcome State Fault Refusal :=
  threeReg .nan aluNan a b d s

/-- `nor a b d` (R116). -/
def execNor (a b d : Byte) (s : State) : Host.Outcome State Fault Refusal :=
  threeReg .nor aluNor a b d s

/-- `bsl a b d` (R117). -/
def execBsl (a b d : Byte) (s : State) : Host.Outcome State Fault Refusal :=
  threeReg .bsl aluBsl a b d s

/-- `bsr a b d` (R118). -/
def execBsr (a b d : Byte) (s : State) : Host.Outcome State Fault Refusal :=
  threeReg .bsr aluBsr a b d s

/-- `not s d` (R119): the source first, the destination last (decision D3). -/
def execNot (r d : Byte) (s : State) : Host.Outcome State Fault Refusal :=
  .next ((s.setReg d (aluNot (s.reg r))).retire .not)

end Sys2Proof.Machine
end

