-- ==== Sys2Proof/Machine/Control.lean ====
section
/-! DEFINITION. The control instructions (41_control.md). -/

namespace Sys2Proof.Machine

/-- `nop` (R90). -/
def execNop (s : State) : Host.Outcome State Fault Refusal := .next (s.retire .nop)

/-- `nxt` (R91): advance and deliver `NEXT_FRAME`; `HALT` is untouched. -/
def execNxt (s : State) : Host.Outcome State Fault Refusal :=
  .next ((s.advance (Opcode.length .nxt)).deliver .nextFrame)

/-- `hlt` (R92): set `HALT` and deliver `HALTED`; the cursor stays at the `hlt` byte. -/
def execHlt (s : State) : Host.Outcome State Fault Refusal :=
  .next ((s.withHalt true).deliver .halted)

end Sys2Proof.Machine
end

