-- ==== Sys2Proof/Machine/DataSkip.lean ====
section
/-! DEFINITION. The data-skip sentinels and the ignore-mode scan (46_data_skip.md, 40_step_dispatch.md
R73). -/

namespace Sys2Proof.Machine

/-- `OP_IGNORE` dispatched in normal mode (R170): enter ignore mode. -/
def execOpIgnore (s : State) : Host.Outcome State Fault Refusal :=
  .next ((s.withIgnoring true).retire .opIgnore)

/-- `OP_UNIGNORE` (R171): in ignore mode the scan's effect of reading this byte, which leaves ignore
mode; dispatched in normal mode, `INVALID_INSTRUCTION`. -/
def execOpUnignore (s : State) : Host.Outcome State Fault Refusal :=
  if s.ignoring then .next ((s.withIgnoring false).retire .opUnignore)
  else raise .invalidInstruction s

/-- The ignore-mode scan of one byte (R73): the end sentinel leaves ignore mode, any other byte is
passed over. -/
def scanByte (b : Byte) (s : State) : Host.Outcome State Fault Refusal :=
  if b = s.cfg.opcodes.opUnignore then execOpUnignore s
  else .next ((s.advance 1).deliver .continue_)

end Sys2Proof.Machine
end

