-- ==== Sys2Proof/Machine/Move.lean ====
section
/-! DEFINITION. The move instructions (42_move.md). The one addressing mode of data memory is the
16-bit absolute address in the instruction (R100). -/

namespace Sys2Proof.Machine

/-- `smr addr s` (R95): memory from register. -/
def execSmr (addr : Addr) (r : Byte) (s : State) : Host.Outcome State Fault Refusal :=
  commit s ((memWrite addr (s.reg r) s).map (·.retire .smr))

/-- `srm d addr` (R96): register from memory. -/
def execSrm (d : Byte) (addr : Addr) (s : State) : Host.Outcome State Fault Refusal :=
  commit s ((memRead addr s).map (fun v => (s.setReg d v).retire .srm))

/-- `srb d imm` (R97): register from immediate. -/
def execSrb (d imm : Byte) (s : State) : Host.Outcome State Fault Refusal :=
  .next ((s.setReg d imm).retire .srb)

/-- `smb addr imm` (R98): memory from immediate. -/
def execSmb (addr : Addr) (imm : Byte) (s : State) : Host.Outcome State Fault Refusal :=
  commit s ((memWrite addr imm s).map (·.retire .smb))

/-- `srr d s` (R99): register from register, the destination first (decision D2). -/
def execSrr (d r : Byte) (s : State) : Host.Outcome State Fault Refusal :=
  .next ((s.setReg d (s.reg r)).retire .srr)

end Sys2Proof.Machine
end

