-- ==== Sys2Proof/Machine/Return.lean ====
section
/-! DEFINITION. The return instructions, all seven over the one routine of 45_return.md R155. -/

namespace Sys2Proof.Machine

/-- The shared routine of R155. A return not taken falls through and cannot fault; a return taken pops
an entry and moves the cursor to that entry plus one, a 17-bit sum. -/
def returnWhen (op : Opcode) (taken : Bool) (s : State) : Host.Outcome State Fault Refusal :=
  if taken then
    commit s ((pop s).map (fun r => (r.2.withPc (r.1.setWidth 17 + 1)).deliver .continue_))
  else .next (s.retire op)

/-- The conditional forms (R163): compare `x[a]` with `x[b]`, then return; `INVALID_INSTRUCTION` where
the configuration rejects them, an arm that no step reaches, since the decoder refuses the byte first
(log entry 10). -/
def returnIf (op : Opcode) (cc : Cond) (a b : Byte) (s : State) :
    Host.Outcome State Fault Refusal :=
  match s.cfg.condReturn with
  | .implemented => returnWhen op (cc.holds (s.reg a) (s.reg b)) s
  | .rejected => raise .invalidInstruction s

/-- `pop` (R156): unconditional return. -/
def execPop (s : State) : Host.Outcome State Fault Refusal := returnWhen .pop true s

/-- `peq a b` (R157): return if equal. -/
def execPeq (a b : Byte) (s : State) : Host.Outcome State Fault Refusal :=
  returnIf .peq .eq a b s

/-- `pnq a b` (R158): return if not equal. -/
def execPnq (a b : Byte) (s : State) : Host.Outcome State Fault Refusal :=
  returnIf .pnq .nq a b s

/-- `pgt a b` (R159): return if greater. -/
def execPgt (a b : Byte) (s : State) : Host.Outcome State Fault Refusal :=
  returnIf .pgt .gt a b s

/-- `plt a b` (R160): return if less. -/
def execPlt (a b : Byte) (s : State) : Host.Outcome State Fault Refusal :=
  returnIf .plt .lt a b s

/-- `pge a b` (R161): return if greater or equal. -/
def execPge (a b : Byte) (s : State) : Host.Outcome State Fault Refusal :=
  returnIf .pge .ge a b s

/-- `ple a b` (R162): return if less or equal. -/
def execPle (a b : Byte) (s : State) : Host.Outcome State Fault Refusal :=
  returnIf .ple .le a b s

end Sys2Proof.Machine
end

