-- ==== Sys2Proof/Machine/Transfer.lean ====
section
/-! DEFINITION. The call and jump instructions, all fourteen over the one routine of
44_call_branch.md R130. -/

namespace Sys2Proof.Machine

/-- The value a call pushes: the low 16 bits of the address of the call's last byte (R130, 10_state.md
R21). -/
def returnEntry (op : Opcode) (s : State) : Addr :=
  (s.pc + BitVec.ofNat 17 op.length - 1).setWidth 16

/-- The opcode is a call: its byte is below `JMP_THRESHOLD` (R130). -/
def State.isCall (s : State) (op : Opcode) : Bool :=
  decide ((s.cfg.opcodes.code op).toNat < s.cfg.opcodes.jmpThreshold.toNat)

/-- The shared routine of R130. A transfer not taken falls through; a call pushes first, and when the
push faults nothing has changed; the cursor then moves to the target with no auto-advance. -/
def transfer (op : Opcode) (taken : Bool) (target : Addr) (s : State) :
    Host.Outcome State Fault Refusal :=
  if taken then
    if s.isCall op then commit s ((push (returnEntry op s) s).map (·.jumpTo target))
    else .next (s.jumpTo target)
  else .next (s.retire op)

/-- The conditional forms of R130: compare `x[a]` with `x[b]`, then transfer. -/
def transferIf (op : Opcode) (cc : Cond) (a b : Byte) (target : Addr) (s : State) :
    Host.Outcome State Fault Refusal :=
  transfer op (cc.holds (s.reg a) (s.reg b)) target s

/-- `psh target` (R132): unconditional call. -/
def execPsh (target : Addr) (s : State) : Host.Outcome State Fault Refusal :=
  transfer .psh true target s

/-- `teq a b target` (R133): call if equal. -/
def execTeq (a b : Byte) (target : Addr) (s : State) :
    Host.Outcome State Fault Refusal :=
  transferIf .teq .eq a b target s

/-- `tnq a b target` (R134): call if not equal. -/
def execTnq (a b : Byte) (target : Addr) (s : State) :
    Host.Outcome State Fault Refusal :=
  transferIf .tnq .nq a b target s

/-- `tgt a b target` (R135): call if greater. -/
def execTgt (a b : Byte) (target : Addr) (s : State) :
    Host.Outcome State Fault Refusal :=
  transferIf .tgt .gt a b target s

/-- `tlt a b target` (R136): call if less. -/
def execTlt (a b : Byte) (target : Addr) (s : State) :
    Host.Outcome State Fault Refusal :=
  transferIf .tlt .lt a b target s

/-- `tge a b target` (R137): call if greater or equal. -/
def execTge (a b : Byte) (target : Addr) (s : State) :
    Host.Outcome State Fault Refusal :=
  transferIf .tge .ge a b target s

/-- `tle a b target` (R138): call if less or equal. -/
def execTle (a b : Byte) (target : Addr) (s : State) :
    Host.Outcome State Fault Refusal :=
  transferIf .tle .le a b target s

/-- `jmp target` (R139): unconditional jump. -/
def execJmp (target : Addr) (s : State) : Host.Outcome State Fault Refusal :=
  transfer .jmp true target s

/-- `jeq a b target` (R140): jump if equal. -/
def execJeq (a b : Byte) (target : Addr) (s : State) :
    Host.Outcome State Fault Refusal :=
  transferIf .jeq .eq a b target s

/-- `jnq a b target` (R141): jump if not equal. -/
def execJnq (a b : Byte) (target : Addr) (s : State) :
    Host.Outcome State Fault Refusal :=
  transferIf .jnq .nq a b target s

/-- `jgt a b target` (R142): jump if greater. -/
def execJgt (a b : Byte) (target : Addr) (s : State) :
    Host.Outcome State Fault Refusal :=
  transferIf .jgt .gt a b target s

/-- `jlt a b target` (R143): jump if less. -/
def execJlt (a b : Byte) (target : Addr) (s : State) :
    Host.Outcome State Fault Refusal :=
  transferIf .jlt .lt a b target s

/-- `jge a b target` (R144): jump if greater or equal. -/
def execJge (a b : Byte) (target : Addr) (s : State) :
    Host.Outcome State Fault Refusal :=
  transferIf .jge .ge a b target s

/-- `jle a b target` (R145): jump if less or equal, or `INVALID_INSTRUCTION` where the configuration
rejects it; no step reaches that arm, since the decoder refuses the byte first (log entry 10). -/
def execJle (a b : Byte) (target : Addr) (s : State) : Host.Outcome State Fault Refusal :=
  match s.cfg.jle with
  | .implemented => transferIf .jle .le a b target s
  | .rejected => raise .invalidInstruction s

end Sys2Proof.Machine
end

