-- ==== Sys2Proof/Machine/Dispatch.lean ====
section
/-! DEFINITION. The dispatch of an instruction to its meaning: one arm per constructor. -/

namespace Sys2Proof.Machine

def exec (i : Instr) (s : State) : Host.Outcome State Fault Refusal :=
  match i with
  -- control
  | .nop => Sys2Proof.Machine.execNop s
  | .nxt => Sys2Proof.Machine.execNxt s
  | .hlt => Sys2Proof.Machine.execHlt s
  -- move
  | .smr addr r => Sys2Proof.Machine.execSmr addr r s
  | .srm d addr => Sys2Proof.Machine.execSrm d addr s
  | .srb d imm => Sys2Proof.Machine.execSrb d imm s
  | .smb addr imm => Sys2Proof.Machine.execSmb addr imm s
  | .srr d r => Sys2Proof.Machine.execSrr d r s
  -- arithmetic/bitwise
  | .add a b d => Sys2Proof.Machine.execAdd a b d s
  | .sub a b d => Sys2Proof.Machine.execSub a b d s
  | .mul a b d => Sys2Proof.Machine.execMul a b d s
  | .div a b d => Sys2Proof.Machine.execDiv a b d s
  | .mod a b d => Sys2Proof.Machine.execMod a b d s
  | .xor a b d => Sys2Proof.Machine.execXor a b d s
  | .and a b d => Sys2Proof.Machine.execAnd a b d s
  | .orr a b d => Sys2Proof.Machine.execOrr a b d s
  | .xnr a b d => Sys2Proof.Machine.execXnr a b d s
  | .nan a b d => Sys2Proof.Machine.execNan a b d s
  | .nor a b d => Sys2Proof.Machine.execNor a b d s
  | .bsl a b d => Sys2Proof.Machine.execBsl a b d s
  | .bsr a b d => Sys2Proof.Machine.execBsr a b d s
  -- unary
  | .not r d => Sys2Proof.Machine.execNot r d s
  -- call/branch
  | .psh target => Sys2Proof.Machine.execPsh target s
  | .teq a b target => Sys2Proof.Machine.execTeq a b target s
  | .tnq a b target => Sys2Proof.Machine.execTnq a b target s
  | .tgt a b target => Sys2Proof.Machine.execTgt a b target s
  | .tlt a b target => Sys2Proof.Machine.execTlt a b target s
  | .tge a b target => Sys2Proof.Machine.execTge a b target s
  | .tle a b target => Sys2Proof.Machine.execTle a b target s
  | .jmp target => Sys2Proof.Machine.execJmp target s
  | .jeq a b target => Sys2Proof.Machine.execJeq a b target s
  | .jnq a b target => Sys2Proof.Machine.execJnq a b target s
  | .jgt a b target => Sys2Proof.Machine.execJgt a b target s
  | .jlt a b target => Sys2Proof.Machine.execJlt a b target s
  | .jge a b target => Sys2Proof.Machine.execJge a b target s
  | .jle a b target => Sys2Proof.Machine.execJle a b target s
  -- return
  | .pop => Sys2Proof.Machine.execPop s
  | .peq a b => Sys2Proof.Machine.execPeq a b s
  | .pnq a b => Sys2Proof.Machine.execPnq a b s
  | .pgt a b => Sys2Proof.Machine.execPgt a b s
  | .plt a b => Sys2Proof.Machine.execPlt a b s
  | .pge a b => Sys2Proof.Machine.execPge a b s
  | .ple a b => Sys2Proof.Machine.execPle a b s
  -- data-skip
  | .opIgnore => Sys2Proof.Machine.execOpIgnore s
  | .opUnignore => Sys2Proof.Machine.execOpUnignore s

end Sys2Proof.Machine
end

