-- ==== Sys2Proof/Machine/Fetch.lean ====
section
/-! DEFINITION. Reading the ROM through the cursor (20_memory.md R31, 40_step_dispatch.md R72, R75),
the bounds a ROM must meet for a machine to exist (70_reset_and_hazards.md R213), and placing an
instruction in a ROM. -/

namespace Sys2Proof.Machine

/-- Why there is no machine with this ROM, if there is none (R213). -/
def romRefusal (rom : List Byte) : Option Refusal :=
  if rom.length = 0 then some .noRom
  else if maxRomLen < rom.length then some .romTooLong
  else none

/-- `RomRead(pc)`, or none where `pc ≥ ROM_LEN` (R72). -/
def fetchByte (s : State) : Option Byte := s.rom[s.pc.toNat]?

/-- Decode the ROM's bytes from the cursor on (R74, R75). -/
def fetchDecode (s : State) : Decoded := decode s.cfg (s.rom.drop s.pc.toNat)

/-- A ROM with bytes placed at a position, extended with zeros where it is too short and cut at the
longest ROM there can be. -/
def placeBytes (rom : List Byte) (pos : Nat) (bs : List Byte) : List Byte :=
  (rom.take pos ++ List.replicate (pos - rom.length) 0 ++ bs ++ rom.drop (pos + bs.length)).take
    maxRomLen

end Sys2Proof.Machine
end

