-- ==== Sys2Proof/Machine/Cycle.lean ====
section
/-! DEFINITION. The order of a step (40_step_dispatch.md R70, R82). -/

namespace Sys2Proof.Machine

/-- One step, in the order of R70: the halt test (R71), the fetch of the byte at the cursor (R72), the
scan in ignore mode (R73), the decode (R74) with the operand fetch (R75), the effect (R76). With a ROM
that no machine can have been built with there is no step (R213). -/
def cycle (s : State) : Host.Outcome State Fault Refusal :=
  match romRefusal s.rom with
  | some r => .refused r
  | none =>
    if s.halt then .next (s.deliver .halted)
    else
      match fetchByte s with
      | none => raise .endOfRom s
      | some b =>
        if s.ignoring then scanByte b s
        else
          match fetchDecode s with
          | .instr i _ => exec i s
          | .invalidOpcode _ => raise .invalidInstruction s
          | .endOfRom => raise .endOfRom s

end Sys2Proof.Machine
end

