-- ==== Sys2Proof/Machine/Step.lean ====
section
/-! DEFINITION. The `step` transaction (10_state.md R24), and a state whose next step fetches a given
instruction. -/

namespace Sys2Proof.Machine

/-- One `step` transaction (R24, 40_step_dispatch.md R82). -/
def step (s : State) : Host.Outcome State Fault Refusal := cycle s

/-- The state with an instruction, given as spec/opcode_table.json numbers its bits, in the ROM at the
cursor, and with what its fetch needs: `HALT` and `IGNORING` clear (R70). It stands for the `construct`
that supplies a ROM (log entry 3). -/
def State.withFetchWord (s : State) (nbits w : Nat) : State :=
  ((s.withRom (placeBytes s.rom s.pc.toNat (tableBytes nbits w))).withHalt false).withIgnoring false

end Sys2Proof.Machine
end

