-- ==== Sys2Proof/Machine/Transactions.lean ====
section
/-! DEFINITION. The host's other two transactions (10_state.md R24): `construct` and `frame`. -/

namespace Sys2Proof.Machine

/-- `construct` (R24, R26; 70_reset_and_hazards.md R210, R213) with a configuration that is an instance
of the hardware's parameters: fails, creating no machine, for an empty ROM and for one longer than
65536 bytes. -/
def construct (cfg : Config) (rom : List Byte) : Option State :=
  if cfg.WF then
    match romRefusal rom with
    | none => some (State.initial cfg rom)
    | some _ => none
  else none

/-- `frame` (40_step_dispatch.md R79) with a bound on its steps: repeat `step` until a status other
than `CONTINUE` is delivered; none where the bound is reached first, so that a frame that never ends
(R80) has no result under any bound. -/
def frame : Nat → State → Option (Host.Outcome State Fault Refusal)
  | 0, _ => none
  | n + 1, s =>
    match step s with
    | .next t => if t.status = some .continue_ then frame n t else some (.next t)
    | .fault r => some (.fault r)
    | .refused r => some (.refused r)

/-- The `frame` transaction from `s` delivers a status and leaves `t`. -/
def FrameReturns (s t : State) : Prop := ∃ n, frame n s = some (.next t)

/-- The `frame` transaction from `s` never delivers a status (R80). -/
def FrameHangs (s : State) : Prop := ∀ n, frame n s = none

end Sys2Proof.Machine
end

