-- ==== Sys2Proof/Safety.lean ====
section
/-! DEFINITION. The terms that statements use: what an instruction leaves unchanged, the invariant of
a machine instance (10_state.md R27), and what a safe run is. -/

namespace Sys2Proof.Machine

/-! ### Frames -/

/-- Every register but the one the operand byte `d` selects is unchanged. -/
def OtherRegsKept (d : Byte) (s t : State) : Prop :=
  ∀ r : Fin 8, r ≠ regIndex d → t.regs.get r = s.regs.get r

/-- Every register is unchanged. -/
def RegsKept (s t : State) : Prop := ∀ r : Fin 8, t.regs.get r = s.regs.get r

/-- Every byte of data memory is unchanged. -/
def MemKept (s t : State) : Prop := ∀ a : Addr, t.mem.read a = s.mem.read a

/-- Every byte of data memory but the one at `addr` is unchanged. -/
def OtherMemKept (addr : Addr) (s t : State) : Prop :=
  ∀ a : Addr, a ≠ addr → t.mem.read a = s.mem.read a

/-- The call stack is unchanged: its count and every slot, live or dead. -/
def StackKept (s t : State) : Prop := t.sp = s.sp ∧ t.stack = s.stack

/-- The flags, the ROM and the configuration are unchanged. -/
def FlagsRomKept (s t : State) : Prop :=
  t.halt = s.halt ∧ t.ignoring = s.ignoring ∧ t.rom = s.rom ∧ t.cfg = s.cfg

/-- The cursor has moved on by `n` bytes and the step delivered `CONTINUE`. -/
def AdvancedBy (n : Nat) (s t : State) : Prop :=
  t.pc = s.pc + BitVec.ofNat 17 n ∧ t.status = some .continue_

/-! ### What an instruction is about -/

/-- The next step dispatches the instruction: the machine runs, is in normal mode, and the bytes at the
cursor decode to it. -/
def Dispatches (s : State) (i : Instr) : Prop :=
  s.halt = false ∧ s.ignoring = false ∧
    ∃ rest, decode s.cfg (s.rom.drop s.pc.toNat) = .instr i rest

/-- The operand byte of the register that an instruction writes, if it writes one. -/
def destinationRegister : Instr → Option Byte
  | .nop => none
  | .nxt => none
  | .hlt => none
  | .smr _ _ => none
  | .srm d _ => some d
  | .srb d _ => some d
  | .smb _ _ => none
  | .srr d _ => some d
  | .add _ _ d => some d
  | .sub _ _ d => some d
  | .mul _ _ d => some d
  | .div _ _ d => some d
  | .mod _ _ d => some d
  | .xor _ _ d => some d
  | .and _ _ d => some d
  | .orr _ _ d => some d
  | .xnr _ _ d => some d
  | .nan _ _ d => some d
  | .nor _ _ d => some d
  | .bsl _ _ d => some d
  | .bsr _ _ d => some d
  | .not _ d => some d
  | .psh _ => none
  | .teq _ _ _ => none
  | .tnq _ _ _ => none
  | .tgt _ _ _ => none
  | .tlt _ _ _ => none
  | .tge _ _ _ => none
  | .tle _ _ _ => none
  | .jmp _ => none
  | .jeq _ _ _ => none
  | .jnq _ _ _ => none
  | .jgt _ _ _ => none
  | .jlt _ _ _ => none
  | .jge _ _ _ => none
  | .jle _ _ _ => none
  | .pop => none
  | .peq _ _ => none
  | .pnq _ _ => none
  | .pgt _ _ => none
  | .plt _ _ => none
  | .pge _ _ => none
  | .ple _ _ => none
  | .opIgnore => none
  | .opUnignore => none

/-- The address of data memory that an instruction writes, if it writes one. -/
def storeAddress : Instr → Option Addr
  | .nop => none
  | .nxt => none
  | .hlt => none
  | .smr addr _ => some addr
  | .srm _ _ => none
  | .srb _ _ => none
  | .smb addr _ => some addr
  | .srr _ _ => none
  | .add _ _ _ => none
  | .sub _ _ _ => none
  | .mul _ _ _ => none
  | .div _ _ _ => none
  | .mod _ _ _ => none
  | .xor _ _ _ => none
  | .and _ _ _ => none
  | .orr _ _ _ => none
  | .xnr _ _ _ => none
  | .nan _ _ _ => none
  | .nor _ _ _ => none
  | .bsl _ _ _ => none
  | .bsr _ _ _ => none
  | .not _ _ => none
  | .psh _ => none
  | .teq _ _ _ => none
  | .tnq _ _ _ => none
  | .tgt _ _ _ => none
  | .tlt _ _ _ => none
  | .tge _ _ _ => none
  | .tle _ _ _ => none
  | .jmp _ => none
  | .jeq _ _ _ => none
  | .jnq _ _ _ => none
  | .jgt _ _ _ => none
  | .jlt _ _ _ => none
  | .jge _ _ _ => none
  | .jle _ _ _ => none
  | .pop => none
  | .peq _ _ => none
  | .pnq _ _ => none
  | .pgt _ _ => none
  | .plt _ _ => none
  | .pge _ _ => none
  | .ple _ _ => none
  | .opIgnore => none
  | .opUnignore => none

/-! ### The invariant -/

/-- The ROM is one that a machine can have been built with (70_reset_and_hazards.md R213). -/
def State.RomOk (s : State) : Prop := 1 ≤ s.rom.length ∧ s.rom.length ≤ maxRomLen

/-- The call stack has its slots, and its count is at most their number (10_state.md R20, R27(b)). -/
def State.StackOk (s : State) : Prop :=
  s.stack.length = s.cfg.stackCap ∧ s.sp ≤ s.cfg.stackCap

/-- The most recent status agrees with `HALT`: a terminal status was delivered exactly if the machine is
halted (R27(f), 40_step_dispatch.md R71). -/
def State.StatusOk (s : State) : Prop :=
  s.halt = true ↔ ∃ st : Status, s.status = some st ∧ st.isTerminal = true

/-- The invariant of a machine instance (R27), with what makes it inductive: in ignore mode the cursor
has not passed the end of the ROM, since no transfer is made there (44_call_branch.md R146(d)). -/
structure State.Inv (s : State) : Prop where
  config : s.cfg.WF
  rom : s.rom.length ≤ maxRomLen
  cursor : s.pc.toNat ≤ 65536
  scanning : s.ignoring = true → s.pc.toNat ≤ s.rom.length
  stack : s.StackOk
  memory : s.mem.wf = true
  status : s.StatusOk

/-! ### Safe runs -/

/-- A run of `n` steps from `s` is safe: no step of it is refused, and none delivers a fault status. -/
def SafeRun : Nat → State → Prop
  | 0, _ => True
  | n + 1, s => ∃ t : State, step s = .next t ∧
      (∀ st, t.status = some st → st.isFault = false) ∧ SafeRun n t

end Sys2Proof.Machine
end

