-- ==== Sys2Proof/Certificates/Slice0/Obligations.lean ====
section
/-! DEFINITION. The statements about the model, and the schemas they share. A decision of the spec
(92_eei_decisions.md) that a statement rests on is named in its docstring, as D<n>; a choice of the
model by the number of its log entry. -/

namespace Sys2Proof.Claims

open Sys2Proof.Machine

/-! ### Terms -/

/-- The byte is not an executable opcode (30_encoding.md R59): in no row of the map, or `OP_UNIGNORE`,
or rejected by the configuration. -/
def NotExecutable (cfg : Config) (b : Byte) : Prop :=
  (∀ op : Opcode, cfg.opcodes.code op ≠ b) ∨ b = cfg.opcodes.opUnignore ∨
  (cfg.jle = .rejected ∧ b = cfg.opcodes.jle) ∨
  (cfg.condReturn = .rejected ∧
    (b = cfg.opcodes.peq ∨ b = cfg.opcodes.pnq ∨ b = cfg.opcodes.pgt ∨ b = cfg.opcodes.plt ∨
      b = cfg.opcodes.ple ∨ b = cfg.opcodes.pge))

/-- The opcode of an instruction that can be rejected is implemented. -/
def Implemented (cfg : Config) (op : Opcode) : Prop :=
  (op = .jle → cfg.jle = .implemented) ∧
  (op ∈ [Opcode.peq, .pnq, .pgt, .plt, .pge, .ple] → cfg.condReturn = .implemented)

/-- The step from `s` to `t` took the fault `st`: `HALT` is set, the status delivered, and every other
piece of state is what it was (60_exceptions.md R183). -/
def FaultedWith (st : Status) (s t : State) : Prop :=
  t = { s with halt := true, status := some st }

/-- One register is written with the value `v`, the cursor moves on by `len`, the status is `CONTINUE`,
and nothing else changes. -/
def WritesRegister (len : Nat) (d : Byte) (v : Nat) (s t : State) : Prop :=
  (t.reg d).toNat = v ∧ OtherRegsKept d s t ∧ MemKept s t ∧ StackKept s t ∧ FlagsRomKept s t ∧
    AdvancedBy len s t

/-- One byte of data memory is written with `v`, the cursor moves on by `len`, the status is `CONTINUE`,
and nothing else changes. -/
def WritesMemory (len : Nat) (addr : Addr) (v : Byte) (s t : State) : Prop :=
  t.mem.read addr = v ∧ OtherMemKept addr s t ∧ RegsKept s t ∧ StackKept s t ∧
    FlagsRomKept s t ∧ AdvancedBy len s t

/-- Nothing changes but the cursor, which moves on by `len`, and the status, which is `CONTINUE`. -/
def FallsThrough (len : Nat) (s t : State) : Prop :=
  RegsKept s t ∧ MemKept s t ∧ StackKept s t ∧ FlagsRomKept s t ∧ AdvancedBy len s t

/-- A jump was made: the cursor is at the target, the status is `CONTINUE`, and nothing else changes. -/
def Jumped (target : Addr) (s t : State) : Prop :=
  t.pc.toNat = target.toNat ∧ t.status = some .continue_ ∧
    RegsKept s t ∧ MemKept s t ∧ StackKept s t ∧ FlagsRomKept s t

/-- A call of length `len` was made: the low 16 bits of the address of its last byte are the new top
entry of the call stack, every other slot is what it was, the cursor is at the target. -/
def Called (len : Nat) (target : Addr) (s t : State) : Prop :=
  t.pc.toNat = target.toNat ∧ t.status = some .continue_ ∧ t.sp = s.sp + 1 ∧
    t.stack[s.sp]? = some (BitVec.ofNat 16 (s.pc.toNat + len - 1)) ∧
    (∀ k, k ≠ s.sp → t.stack[k]? = s.stack[k]?) ∧
    RegsKept s t ∧ MemKept s t ∧ FlagsRomKept s t

/-- A return to the entry `e` was made: the cursor is one past it, the count is one less, every slot
keeps its value. -/
def Returned (e : Addr) (s t : State) : Prop :=
  t.pc.toNat = e.toNat + 1 ∧ t.status = some .continue_ ∧ t.sp + 1 = s.sp ∧ t.stack = s.stack ∧
    RegsKept s t ∧ MemKept s t ∧ FlagsRomKept s t

/-! ### Schemas -/

/-- A three-register instruction (43_arith_bitwise.md R105): its encoding under every map that meets R53,
and its result for every state and every three operand bytes. -/
def ThreeRegisterResult (mk : Byte → Byte → Byte → Instr) (op : Opcode) (f : Nat → Nat → Nat) : Prop :=
  (∀ (cfg : Config) (a b d : Byte) (rest : List Byte), cfg.WF →
    decode cfg (cfg.opcodes.code op :: a :: b :: d :: rest) = .instr (mk a b d) rest) ∧
  (∀ (s : State) (a b d : Byte), ∃ t, exec (mk a b d) s = .next t ∧
    WritesRegister 4 d (f (s.reg a).toNat (s.reg b).toNat) s t)

/-- `div` or `mod`: encoding, and result for a divisor that is not zero. -/
def DivisionSchema (mk : Byte → Byte → Byte → Instr) (op : Opcode) (f : Nat → Nat → Nat) : Prop :=
  (∀ (cfg : Config) (a b d : Byte) (rest : List Byte), cfg.WF →
    decode cfg (cfg.opcodes.code op :: a :: b :: d :: rest) = .instr (mk a b d) rest) ∧
  (∀ (s : State) (a b d : Byte), (s.reg b).toNat ≠ 0 → ∃ t, exec (mk a b d) s = .next t ∧
    WritesRegister 4 d (f (s.reg a).toNat (s.reg b).toNat) s t)

/-- A conditional call: encoding, result when the relation holds and the stack has room, result
when the relation does not hold. -/
def ConditionalCall (mk : Byte → Byte → Addr → Instr) (op : Opcode) (rel : Nat → Nat → Prop) : Prop :=
  (∀ (cfg : Config) (a b hi lo : Byte) (rest : List Byte), cfg.WF →
    decode cfg (cfg.opcodes.code op :: a :: b :: hi :: lo :: rest) =
      .instr (mk a b (BitVec.ofNat 16 (hi.toNat * 256 + lo.toNat))) rest) ∧
  (∀ (s : State) (a b : Byte) (target : Addr), s.cfg.WF → s.StackOk →
    rel (s.reg a).toNat (s.reg b).toNat → s.sp < s.cfg.stackCap →
      ∃ t, exec (mk a b target) s = .next t ∧ Called 5 target s t) ∧
  (∀ (s : State) (a b : Byte) (target : Addr), ¬ rel (s.reg a).toNat (s.reg b).toNat →
      ∃ t, exec (mk a b target) s = .next t ∧ FallsThrough 5 s t)

/-- A conditional call whose relation holds, on a full stack. -/
def ConditionalCallOnFullStack (mk : Byte → Byte → Addr → Instr) (rel : Nat → Nat → Prop) : Prop :=
  ∀ (s : State) (a b : Byte) (target : Addr), s.cfg.WF →
    rel (s.reg a).toNat (s.reg b).toNat → s.sp = s.cfg.stackCap →
      ∃ t, exec (mk a b target) s = .next t ∧ FaultedWith .stackOutOfBounds s t

/-- A conditional jump: encoding, result when the relation holds, result when it does not. -/
def ConditionalJump (mk : Byte → Byte → Addr → Instr) (op : Opcode) (rel : Nat → Nat → Prop) : Prop :=
  (∀ (cfg : Config) (a b hi lo : Byte) (rest : List Byte), cfg.WF → Implemented cfg op →
    decode cfg (cfg.opcodes.code op :: a :: b :: hi :: lo :: rest) =
      .instr (mk a b (BitVec.ofNat 16 (hi.toNat * 256 + lo.toNat))) rest) ∧
  (∀ (s : State) (a b : Byte) (target : Addr), s.cfg.WF → Implemented s.cfg (mk a b target).opcode →
    (rel (s.reg a).toNat (s.reg b).toNat →
      ∃ t, exec (mk a b target) s = .next t ∧ Jumped target s t) ∧
    (¬ rel (s.reg a).toNat (s.reg b).toNat →
      ∃ t, exec (mk a b target) s = .next t ∧ FallsThrough 5 s t))

/-- A conditional return: encoding, result when the relation holds and the stack holds an
entry, result when the relation does not hold. -/
def ConditionalReturn (mk : Byte → Byte → Instr) (op : Opcode) (rel : Nat → Nat → Prop) : Prop :=
  (∀ (cfg : Config) (a b : Byte) (rest : List Byte), cfg.WF → Implemented cfg op →
    decode cfg (cfg.opcodes.code op :: a :: b :: rest) = .instr (mk a b) rest) ∧
  (∀ (s : State) (a b : Byte) (e : Addr), s.cfg.condReturn = .implemented →
    rel (s.reg a).toNat (s.reg b).toNat → s.sp ≠ 0 → s.stack[s.sp - 1]? = some e →
      ∃ t, exec (mk a b) s = .next t ∧ Returned e s t) ∧
  (∀ (s : State) (a b : Byte), s.cfg.condReturn = .implemented →
    ¬ rel (s.reg a).toNat (s.reg b).toNat →
      ∃ t, exec (mk a b) s = .next t ∧ FallsThrough 3 s t)

/-- A conditional return whose relation holds, on an empty stack. -/
def ConditionalReturnOnEmptyStack (mk : Byte → Byte → Instr) (rel : Nat → Nat → Prop) : Prop :=
  ∀ (s : State) (a b : Byte), s.cfg.condReturn = .implemented →
    rel (s.reg a).toNat (s.reg b).toNat → s.sp = 0 →
      ∃ t, exec (mk a b) s = .next t ∧ FaultedWith .stackOutOfBounds s t

/-- The instruction dispatched next is a call whose condition holds. -/
def DispatchesTakenCall (s : State) : Prop :=
  (∃ g, Dispatches s (.psh g)) ∨
  ∃ a b g,
    (Dispatches s (.teq a b g) ∧ (s.reg a).toNat = (s.reg b).toNat) ∨
    (Dispatches s (.tnq a b g) ∧ (s.reg a).toNat ≠ (s.reg b).toNat) ∨
    (Dispatches s (.tgt a b g) ∧ (s.reg a).toNat > (s.reg b).toNat) ∨
    (Dispatches s (.tlt a b g) ∧ (s.reg a).toNat < (s.reg b).toNat) ∨
    (Dispatches s (.tge a b g) ∧ (s.reg a).toNat ≥ (s.reg b).toNat) ∨
    (Dispatches s (.tle a b g) ∧ (s.reg a).toNat ≤ (s.reg b).toNat)

/-- The instruction dispatched next is a return whose condition holds. -/
def DispatchesTakenReturn (s : State) : Prop :=
  Dispatches s .pop ∨
  ∃ a b,
    (Dispatches s (.peq a b) ∧ (s.reg a).toNat = (s.reg b).toNat) ∨
    (Dispatches s (.pnq a b) ∧ (s.reg a).toNat ≠ (s.reg b).toNat) ∨
    (Dispatches s (.pgt a b) ∧ (s.reg a).toNat > (s.reg b).toNat) ∨
    (Dispatches s (.plt a b) ∧ (s.reg a).toNat < (s.reg b).toNat) ∨
    (Dispatches s (.pge a b) ∧ (s.reg a).toNat ≥ (s.reg b).toNat) ∨
    (Dispatches s (.ple a b) ∧ (s.reg a).toNat ≤ (s.reg b).toNat)

/-- An instruction with bits 7 to 3 of every register operand byte cleared. -/
def withMaskedRegisters : Instr → Instr
  | .nop => .nop
  | .nxt => .nxt
  | .hlt => .hlt
  | .smr addr r => .smr addr (r &&& 7#8)
  | .srm d addr => .srm (d &&& 7#8) addr
  | .srb d imm => .srb (d &&& 7#8) imm
  | .smb addr imm => .smb addr imm
  | .srr d r => .srr (d &&& 7#8) (r &&& 7#8)
  | .add a b d => .add (a &&& 7#8) (b &&& 7#8) (d &&& 7#8)
  | .sub a b d => .sub (a &&& 7#8) (b &&& 7#8) (d &&& 7#8)
  | .mul a b d => .mul (a &&& 7#8) (b &&& 7#8) (d &&& 7#8)
  | .div a b d => .div (a &&& 7#8) (b &&& 7#8) (d &&& 7#8)
  | .mod a b d => .mod (a &&& 7#8) (b &&& 7#8) (d &&& 7#8)
  | .xor a b d => .xor (a &&& 7#8) (b &&& 7#8) (d &&& 7#8)
  | .and a b d => .and (a &&& 7#8) (b &&& 7#8) (d &&& 7#8)
  | .orr a b d => .orr (a &&& 7#8) (b &&& 7#8) (d &&& 7#8)
  | .xnr a b d => .xnr (a &&& 7#8) (b &&& 7#8) (d &&& 7#8)
  | .nan a b d => .nan (a &&& 7#8) (b &&& 7#8) (d &&& 7#8)
  | .nor a b d => .nor (a &&& 7#8) (b &&& 7#8) (d &&& 7#8)
  | .bsl a b d => .bsl (a &&& 7#8) (b &&& 7#8) (d &&& 7#8)
  | .bsr a b d => .bsr (a &&& 7#8) (b &&& 7#8) (d &&& 7#8)
  | .not r d => .not (r &&& 7#8) (d &&& 7#8)
  | .psh target => .psh target
  | .teq a b target => .teq (a &&& 7#8) (b &&& 7#8) target
  | .tnq a b target => .tnq (a &&& 7#8) (b &&& 7#8) target
  | .tgt a b target => .tgt (a &&& 7#8) (b &&& 7#8) target
  | .tlt a b target => .tlt (a &&& 7#8) (b &&& 7#8) target
  | .tge a b target => .tge (a &&& 7#8) (b &&& 7#8) target
  | .tle a b target => .tle (a &&& 7#8) (b &&& 7#8) target
  | .jmp target => .jmp target
  | .jeq a b target => .jeq (a &&& 7#8) (b &&& 7#8) target
  | .jnq a b target => .jnq (a &&& 7#8) (b &&& 7#8) target
  | .jgt a b target => .jgt (a &&& 7#8) (b &&& 7#8) target
  | .jlt a b target => .jlt (a &&& 7#8) (b &&& 7#8) target
  | .jge a b target => .jge (a &&& 7#8) (b &&& 7#8) target
  | .jle a b target => .jle (a &&& 7#8) (b &&& 7#8) target
  | .pop => .pop
  | .peq a b => .peq (a &&& 7#8) (b &&& 7#8)
  | .pnq a b => .pnq (a &&& 7#8) (b &&& 7#8)
  | .pgt a b => .pgt (a &&& 7#8) (b &&& 7#8)
  | .plt a b => .plt (a &&& 7#8) (b &&& 7#8)
  | .pge a b => .pge (a &&& 7#8) (b &&& 7#8)
  | .ple a b => .ple (a &&& 7#8) (b &&& 7#8)
  | .opIgnore => .opIgnore
  | .opUnignore => .opUnignore

end Sys2Proof.Claims

open Sys2Proof Sys2Proof.Machine Sys2Proof.Claims

/-! ### Encoding -/

/-- Decoding the encoding of an instruction gives it back, with the bytes after it untouched: for every
configuration whose map meets R53 and every instruction it admits, at every operand value. -/
def Obligations.DecodeEncodeRoundTrip : Prop :=
  ∀ (cfg : Config) (i : Instr) (rest : List Byte), cfg.WF → i.wellFormed cfg = true →
    decode cfg (encode cfg.opcodes i ++ rest) = .instr i rest

/-- Whatever decodes to an instruction is its encoding followed by the rest, and the instruction is one
that the configuration admits: no bit of the bytes is dropped and no rejected opcode passes. -/
def Obligations.EncodeDecodeRoundTrip : Prop :=
  ∀ (cfg : Config) (bs rest : List Byte) (i : Instr), decode cfg bs = .instr i rest →
    bs = encode cfg.opcodes i ++ rest ∧ i.wellFormed cfg = true

/-- A few words written out from the formats of R52 and the table of R54, one of each format (the byte
values are D1's). -/
def Obligations.TableWordsDecode : Prop :=
  decodeTableWord 8 0x00 = some .nop ∧
  decodeTableWord 24 0xFF0112 = some (.srb 1 0xFF) ∧
  decodeTableWord 24 0x020130 = some (.not 1 2) ∧
  decodeTableWord 24 0x341248 = some (.jmp 0x1234) ∧
  decodeTableWord 32 0x34120311 = some (.srm 3 0x1234) ∧
  decodeTableWord 32 0x03341210 = some (.smr 0x1234 3) ∧
  decodeTableWord 32 0xAB341213 = some (.smb 0x1234 0xAB) ∧
  decodeTableWord 32 0x03020120 = some (.add 1 2 3) ∧
  decodeTableWord 40 0x3412020141 = some (.teq 1 2 0x1234) ∧
  decodeTableWord 8 0xFF = some .opUnignore ∧ decodeTableWord 8 0x03 = none

/-- The bytes of the default map, in the order of the table of R54, its threshold, and that it meets R53
(the values are D1's). -/
def Obligations.DefaultOpcodeBytes : Prop :=
  Opcode.all.map Config.specDefault.opcodes.code =
    [ 0x00, 0x01, 0x02, 0x10, 0x11, 0x12, 0x13, 0x14,
      0x20, 0x21, 0x22, 0x23, 0x24, 0x25, 0x26, 0x27, 0x28, 0x29, 0x2A, 0x2B, 0x2C, 0x30,
      0x40, 0x41, 0x42, 0x43, 0x44, 0x45, 0x46, 0x48, 0x49, 0x4A, 0x4B, 0x4C, 0x4D, 0x4E,
      0x50, 0x51, 0x52, 0x53, 0x54, 0x55, 0x56, 0xFE, 0xFF ] ∧
  Config.specDefault.opcodes.jmpThreshold = 0x48 ∧ Config.specDefault.WF

/-- Under the default map (D1) the opcode bytes that decode to nothing are exactly the 211 that R59
lists, whatever follows them (D22), and those that a configuration rejects (D5, D6) join them. -/
def Obligations.UnlistedBytesAreInvalid : Prop :=
  (∀ (b : Byte) (bs : List Byte), decode Config.specDefault (b :: bs) = .invalidOpcode b ↔
    (0x03 ≤ b.toNat ∧ b.toNat ≤ 0x0F) ∨ (0x15 ≤ b.toNat ∧ b.toNat ≤ 0x1F) ∨
    (0x2D ≤ b.toNat ∧ b.toNat ≤ 0x2F) ∨ (0x31 ≤ b.toNat ∧ b.toNat ≤ 0x3F) ∨
    b.toNat = 0x47 ∨ b.toNat = 0x4F ∨ (0x57 ≤ b.toNat ∧ b.toNat ≤ 0xFD)) ∧
  (∀ bs, decode { Config.specDefault with jle := .rejected } (0x4E :: bs) = .invalidOpcode 0x4E) ∧
  (∀ (b : Byte) (bs : List Byte), 0x51 ≤ b.toNat → b.toNat ≤ 0x56 →
    decode { Config.specDefault with condReturn := .rejected } (b :: bs) = .invalidOpcode b)

/-- The bytes end inside an instruction exactly when there are none, or the first is an executable
opcode and fewer bytes are there than its length (40_step_dispatch.md R72, R75). -/
def Obligations.TruncatedBytesAreEndOfRom : Prop :=
  ∀ (cfg : Config) (bs : List Byte), cfg.WF →
    (decode cfg bs = .endOfRom ↔
      bs = [] ∨ ∃ op rest, bs = cfg.opcodes.code op :: rest ∧ Implemented cfg op ∧
        bs.length < op.length)

/-! ### The step -/

/-- A running machine in normal mode, at bytes that decode to an instruction, steps as `exec` of that
instruction. Nothing is added around it: each meaning moves the cursor and delivers the status itself. -/
def Obligations.StepRunsDecodedInstruction : Prop :=
  ∀ (s : State) (i : Instr), s.RomOk → Dispatches s i → step s = exec i s

/-- A halted machine's step changes no state and returns `HALTED`, and once a terminal status has been
returned every later step does so, for ever (R71). -/
def Obligations.HaltedMachineStaysHalted : Prop :=
  (∀ s : State, s.RomOk → s.halt = true → step s = .next { s with status := some .halted }) ∧
  (∀ (s t : State) (st : Status) (n : Nat), step s = .next t → t.status = some st →
    st ≠ .continue_ → st ≠ .nextFrame →
      Sys2Proof.core.run (n + 1) t = .next { t with status := some .halted })

/-- A running machine whose cursor is at or past the end of the ROM faults with `END_OF_ROM`, in normal
mode and in ignore mode alike (R72; D27 for ignore mode). -/
def Obligations.FetchPastRomFaults : Prop :=
  ∀ s : State, s.RomOk → s.halt = false → s.rom.length ≤ s.pc.toNat →
    ∃ t, step s = .next t ∧ FaultedWith .endOfRom s t

/-- In ignore mode a step passes over one byte, whatever it is, and leaves ignore mode exactly on the
end sentinel (R73; the status is D14's). -/
def Obligations.ScanStepPassesOneByte : Prop :=
  ∀ (s : State) (b : Byte), s.RomOk → s.halt = false → s.ignoring = true →
    s.rom[s.pc.toNat]? = some b →
      ∃ t, step s = .next t ∧ t.pc.toNat = s.pc.toNat + 1 ∧
        (t.ignoring = false ↔ b = s.cfg.opcodes.opUnignore) ∧ t.halt = false ∧
        t.status = some .continue_ ∧ RegsKept s t ∧ MemKept s t ∧ StackKept s t ∧
        t.rom = s.rom ∧ t.cfg = s.cfg

/-- In normal mode a byte that is not an executable opcode faults with `INVALID_INSTRUCTION`, whatever
follows it (R74; D15, D22). -/
def Obligations.NonExecutableOpcodeFaults : Prop :=
  ∀ (s : State) (b : Byte), s.cfg.WF → s.RomOk → s.halt = false → s.ignoring = false →
    s.rom[s.pc.toNat]? = some b → NotExecutable s.cfg b →
      ∃ t, step s = .next t ∧ FaultedWith .invalidInstruction s t

/-- In normal mode an executable opcode whose instruction does not fit in the ROM faults with
`END_OF_ROM` and has no effect (R75). -/
def Obligations.TruncatedInstructionFaults : Prop :=
  ∀ (s : State) (op : Opcode), s.cfg.WF → s.RomOk → s.halt = false → s.ignoring = false →
    s.rom[s.pc.toNat]? = some (s.cfg.opcodes.code op) → Implemented s.cfg op →
    s.rom.length < s.pc.toNat + op.length →
      ∃ t, step s = .next t ∧ FaultedWith .endOfRom s t

/-- A step of a machine completes, whatever its state; the step is refused exactly where there is no
machine because its ROM is empty or too long (R213, D12). -/
def Obligations.StepStopsOnlyWithoutMachine : Prop :=
  (∀ s : State, s.RomOk → ∃ t, step s = .next t) ∧
  (∀ s : State, (∃ r, step s = .refused r) ↔ ¬ s.RomOk) ∧
  (∀ (s : State) (r : Fault), step s ≠ .fault r)

/-- Every step keeps the invariant of a machine instance (10_state.md R27). -/
def Obligations.StepKeepsInvariant : Prop :=
  ∀ s t : State, s.Inv → step s = .next t → t.Inv

/-- The machine after reset has the invariant. -/
def Obligations.ResetHasInvariant : Prop := State.reset.Inv

/-- Construction fails exactly for a ROM that is empty or too long, and otherwise gives the values of
R26, and the invariant (D12, D19; the spec's own choice are the zeros of registers and memory). -/
def Obligations.ConstructGivesResetState : Prop :=
  ∀ (cfg : Config) (rom : List Byte), cfg.WF →
    (construct cfg rom = none ↔ rom.length = 0 ∨ 65536 < rom.length) ∧
    (∀ s, construct cfg rom = some s → s.pc.toNat = 0 ∧ s.halt = false ∧ s.ignoring = false ∧
      s.sp = 0 ∧ s.stack.length = cfg.stackCap ∧ s.rom = rom ∧ s.cfg = cfg ∧
      (∀ b : Byte, (s.reg b).toNat = 0) ∧ (∀ a : Addr, (s.mem.read a).toNat = 0) ∧ s.Inv)

/-- A step that delivers a fault status has changed nothing but `HALT`, over all instructions and all
causes (60_exceptions.md R183, D17). -/
def Obligations.FaultChangesOnlyHalt : Prop :=
  ∀ (s t : State) (st : Status), step s = .next t → t.status = some st →
    st.isFault = true → FaultedWith st s t

/-- No run changes the ROM or the configuration; after any run from construction a fetch returns the
byte supplied at construction; and what is fetched and decoded does not depend on data memory (R42). -/
def Obligations.RunKeepsRomAndConfig : Prop :=
  (∀ (n : Nat) (s t : State), Sys2Proof.core.run n s = .next t → t.rom = s.rom ∧ t.cfg = s.cfg) ∧
  (∀ (n : Nat) (cfg : Config) (rom : List Byte) (s t : State), construct cfg rom = some s →
    Sys2Proof.core.run n s = .next t → fetchByte t = rom[t.pc.toNat]?) ∧
  (∀ (s : State) (m : Memory), fetchByte (s.withMem m) = fetchByte s ∧
    fetchDecode (s.withMem m) = fetchDecode s)

/-- No step delivers `MEMORY_OUT_OF_BOUNDS` (20_memory.md R32; D11). -/
def Obligations.MemoryOutOfBoundsNeverDelivered : Prop :=
  ∀ s t : State, step s = .next t → t.status ≠ some .memoryOutOfBounds

/-- A step depends on no byte of the ROM but the five from the cursor on, and on its length
(20_memory.md R31, 30_encoding.md R50). -/
def Obligations.StepReadsFiveRomBytes : Prop :=
  ∀ (s t : State) (rom : List Byte), rom.length = s.rom.length →
    (∀ k, k < 5 → rom[s.pc.toNat + k]? = s.rom[s.pc.toNat + k]?) →
    step s = .next t → step { s with rom := rom } = .next { t with rom := rom }

/-- After a step `HALT` is set exactly if it was set, or the step dispatched `hlt`, or it faulted
(10_state.md R17); so nothing clears it. -/
def Obligations.HaltIsSetOnlyByHltOrFault : Prop :=
  ∀ s t : State, step s = .next t →
    (t.halt = true ↔ s.halt = true ∨ Dispatches s .hlt ∨
      ∃ st, t.status = some st ∧ st.isFault = true)

/-- Ignore mode is entered exactly by dispatching `OP_IGNORE`, and left exactly by scanning the byte
`OP_UNIGNORE` (10_state.md R18). -/
def Obligations.IgnoringChangesOnlyAtSentinels : Prop :=
  ∀ s t : State, step s = .next t →
    (s.ignoring = false → (t.ignoring = true ↔ Dispatches s .opIgnore)) ∧
    (s.ignoring = true → (t.ignoring = false ↔
      s.halt = false ∧ s.rom[s.pc.toNat]? = some s.cfg.opcodes.opUnignore))

/-- Every status has the cause that the table of 40_step_dispatch.md R77 gives it, and no other; a step
that has none of these causes delivers `CONTINUE`. -/
def Obligations.StatusHasItsCause : Prop :=
  ∀ s t : State, s.cfg.WF → step s = .next t →
    (t.status = some .halted ↔ s.halt = true ∨ Dispatches s .hlt) ∧
    (t.status = some .nextFrame ↔ Dispatches s .nxt) ∧
    (t.status = some .endOfRom ↔ s.halt = false ∧ (s.rom.length ≤ s.pc.toNat ∨
      (s.ignoring = false ∧ ∃ op, s.rom[s.pc.toNat]? = some (s.cfg.opcodes.code op) ∧
        Implemented s.cfg op ∧ s.rom.length < s.pc.toNat + op.length))) ∧
    (t.status = some .invalidInstruction ↔ s.halt = false ∧ s.ignoring = false ∧
      ∃ b, s.rom[s.pc.toNat]? = some b ∧ NotExecutable s.cfg b) ∧
    (t.status = some .stackOutOfBounds ↔
      (DispatchesTakenCall s ∧ s.sp = s.cfg.stackCap) ∨ (DispatchesTakenReturn s ∧ s.sp = 0)) ∧
    (t.status = some .divideByZero ↔ s.cfg.divZero = .fault ∧ ∃ a b d,
      (Dispatches s (.div a b d) ∨ Dispatches s (.mod a b d)) ∧ (s.reg b).toNat = 0) ∧
    t.status ≠ some .memoryOutOfBounds ∧ t.status ≠ none

/-! ### Whole-machine frames -/

/-- What every instruction leaves unchanged, faulting or not: every register but its destination, every
byte of data memory but the one it stores to, every slot of the call stack but, for a call, the one at
the count, `IGNORING` but for the two sentinels, `HALT` but for `hlt` and a fault, the ROM and the
configuration (20_memory.md R36, 40_step_dispatch.md R78). -/
def Obligations.InstructionFrame : Prop :=
  ∀ (i : Instr) (s t : State), s.cfg.WF → s.mem.wf = true → exec i s = .next t →
    (∀ r : Fin 8, (∀ d, destinationRegister i = some d → r ≠ regIndex d) →
      t.regs.get r = s.regs.get r) ∧
    (∀ a : Addr, storeAddress i ≠ some a → t.mem.read a = s.mem.read a) ∧
    (i.opcode ∉ Opcode.calls → t.stack = s.stack) ∧
    (∀ k, k ≠ s.sp → t.stack[k]? = s.stack[k]?) ∧
    (i ≠ .opIgnore → i ≠ .opUnignore → t.ignoring = s.ignoring) ∧
    (t.halt = s.halt ∨ i = .hlt ∨ ∃ st, t.status = some st ∧ st.isFault = true) ∧
    t.rom = s.rom ∧ t.cfg = s.cfg

/-- An instruction that changes the call stack or its count is a call or a return (10_state.md R20). -/
def Obligations.OnlyCallsAndReturnsMoveStack : Prop :=
  ∀ (i : Instr) (s t : State), s.cfg.WF → exec i s = .next t → ¬ StackKept s t →
    (i.opcode ∈ Opcode.calls ∧ t.sp = s.sp + 1) ∨
    (i.opcode ∈ Opcode.returns ∧ t.sp + 1 = s.sp ∧
      t.stack = s.stack)

/-- A register operand byte selects the register of its low three bits, on reads and on writes alike,
for every instruction; no register operand byte is illegal (10_state.md R12). -/
def Obligations.RegisterOperandIsMasked : Prop :=
  (∀ (s : State) (b : Byte), s.reg b = s.regs[b.toNat % 8]) ∧
  (∀ (s : State) (b v : Byte) (r : Fin 8), (s.setReg b v).regs.get r =
    if r.val = b.toNat % 8 then v else s.regs.get r) ∧
  (∀ (i : Instr) (s : State), exec i s = exec (withMaskedRegisters i) s)

/-! ### Control and moves -/

/-- `nop` moves on by one byte and returns `CONTINUE`; `nxt` does the same and returns `NEXT_FRAME`,
leaving `HALT` as it was; `hlt` sets `HALT`, returns `HALTED` and leaves the cursor (R90 to R92). -/
def Obligations.ControlInstructionsResult : Prop :=
  (∀ (cfg : Config) (rest : List Byte), cfg.WF →
    decode cfg (cfg.opcodes.nop :: rest) = .instr .nop rest ∧
    decode cfg (cfg.opcodes.nxt :: rest) = .instr .nxt rest ∧
    decode cfg (cfg.opcodes.hlt :: rest) = .instr .hlt rest) ∧
  (∀ s : State, ∃ t, exec .nop s = .next t ∧ FallsThrough 1 s t) ∧
  (∀ s : State, ∃ t, exec .nxt s = .next t ∧ t.pc = s.pc + 1 ∧ t.status = some .nextFrame ∧
    RegsKept s t ∧ MemKept s t ∧ StackKept s t ∧ FlagsRomKept s t) ∧
  (∀ s : State, exec .hlt s = .next { s with halt := true, status := some .halted })

/-- `smr` and `smb` write one byte at the 16-bit address of the instruction, any of the 65536, and
nothing else (R95, R98; the direction is D2's). -/
def Obligations.StoresResult : Prop :=
  (∀ (cfg : Config) (hi lo x : Byte) (rest : List Byte), cfg.WF →
    decode cfg (cfg.opcodes.smr :: hi :: lo :: x :: rest) =
      .instr (.smr (BitVec.ofNat 16 (hi.toNat * 256 + lo.toNat)) x) rest ∧
    decode cfg (cfg.opcodes.smb :: hi :: lo :: x :: rest) =
      .instr (.smb (BitVec.ofNat 16 (hi.toNat * 256 + lo.toNat)) x) rest) ∧
  (∀ (s : State) (addr : Addr) (r : Byte), s.mem.wf = true →
    ∃ t, exec (.smr addr r) s = .next t ∧ WritesMemory 4 addr (s.reg r) s t) ∧
  (∀ (s : State) (addr : Addr) (imm : Byte), s.mem.wf = true →
    ∃ t, exec (.smb addr imm) s = .next t ∧ WritesMemory 4 addr imm s t)

/-- `srm` writes the byte of data memory at the instruction's address to the register (R96; the
direction is D2's). -/
def Obligations.LoadFromMemoryResult : Prop :=
  (∀ (cfg : Config) (d hi lo : Byte) (rest : List Byte), cfg.WF →
    decode cfg (cfg.opcodes.srm :: d :: hi :: lo :: rest) =
      .instr (.srm d (BitVec.ofNat 16 (hi.toNat * 256 + lo.toNat))) rest) ∧
  (∀ (s : State) (d : Byte) (addr : Addr), ∃ t, exec (.srm d addr) s = .next t ∧
    WritesRegister 4 d (s.mem.read addr).toNat s t)

/-- `srb` writes its immediate to the register (R97). -/
def Obligations.SetRegisterResult : Prop :=
  (∀ (cfg : Config) (d imm : Byte) (rest : List Byte), cfg.WF →
    decode cfg (cfg.opcodes.srb :: d :: imm :: rest) = .instr (.srb d imm) rest) ∧
  (∀ (s : State) (d imm : Byte), ∃ t, exec (.srb d imm) s = .next t ∧
    WritesRegister 3 d imm.toNat s t)

/-- `srr` writes its second register to its first (R99; the direction is D2's). -/
def Obligations.CopyRegisterResult : Prop :=
  (∀ (cfg : Config) (d r : Byte) (rest : List Byte), cfg.WF →
    decode cfg (cfg.opcodes.srr :: d :: r :: rest) = .instr (.srr d r) rest) ∧
  (∀ (s : State) (d r : Byte), ∃ t, exec (.srr d r) s = .next t ∧
    WritesRegister 3 d (s.reg r).toNat s t)

/-- A load after a store to the same address gives the stored byte, whatever registers are named
(20_memory.md R32). -/
def Obligations.LoadAfterStoreReadsStoredByte : Prop :=
  ∀ (s t u : State) (addr : Addr) (r d : Byte), s.mem.wf = true →
    exec (.smr addr r) s = .next t → exec (.srm d addr) t = .next u → u.reg d = s.reg r

/-! ### Arithmetic -/

/-- `add`, `sub` and `mul` give the mathematical result modulo 256 (R106 to R108). -/
def Obligations.WrappingArithmeticResult : Prop :=
  ThreeRegisterResult .add .add (fun x y => (x + y) % 256) ∧
  ThreeRegisterResult .sub .sub (fun x y => (x + 256 - y) % 256) ∧
  ThreeRegisterResult .mul .mul (fun x y => (x * y) % 256)

/-- `div` and `mod` give the unsigned quotient and remainder for a divisor that is not 0 (R109, R110). -/
def Obligations.DivisionResult : Prop :=
  DivisionSchema .div .div (fun x y => x / y) ∧ DivisionSchema .mod .mod (fun x y => x % y)

/-- `div` and `mod` with a zero divisor fault with `DIVIDE_BY_ZERO` under the policy `fault` (R121, D7). -/
def Obligations.ZeroDivisorFaults : Prop :=
  ∀ (s : State) (a b d : Byte), s.cfg.divZero = .fault → (s.reg b).toNat = 0 →
    (∃ t, exec (.div a b d) s = .next t ∧ FaultedWith .divideByZero s t) ∧
    (∃ t, exec (.mod a b d) s = .next t ∧ FaultedWith .divideByZero s t)

/-- Under the policy `value` a zero divisor gives 255 to `div` and the dividend to `mod` (R121, D7). -/
def Obligations.ZeroDivisorValuePolicy : Prop :=
  ∀ (s : State) (a b d : Byte), s.cfg.divZero = .value → (s.reg b).toNat = 0 →
    (∃ t, exec (.div a b d) s = .next t ∧ WritesRegister 4 d 255 s t) ∧
    (∃ t, exec (.mod a b d) s = .next t ∧ WritesRegister 4 d (s.reg a).toNat s t)

/-- The six bitwise instructions; `nan` is the complement of the OR and `nor` of the AND (R111 to R116,
conflict C1). -/
def Obligations.BitwiseResult : Prop :=
  ThreeRegisterResult .xor .xor (fun x y => x ^^^ y) ∧
  ThreeRegisterResult .and .and (fun x y => x &&& y) ∧
  ThreeRegisterResult .orr .orr (fun x y => x ||| y) ∧
  ThreeRegisterResult .xnr .xnr (fun x y => 255 - (x ^^^ y)) ∧
  ThreeRegisterResult .nan .nan (fun x y => 255 - (x ||| y)) ∧
  ThreeRegisterResult .nor .nor (fun x y => 255 - (x &&& y))

/-- The shifts take their count from the whole byte, and give 0 for counts of 8 or more (R117, R118;
D8, and that they are shifts is the spec's reading of the mnemonics). -/
def Obligations.ShiftResult : Prop :=
  ThreeRegisterResult .bsl .bsl (fun x y => (x * 2 ^ y) % 256) ∧
  ThreeRegisterResult .bsr .bsr (fun x y => x / 2 ^ y) ∧
  (∀ (s t : State) (a b d : Byte), 8 ≤ (s.reg b).toNat →
    exec (.bsl a b d) s = .next t ∨ exec (.bsr a b d) s = .next t → (t.reg d).toNat = 0)

/-- `not` writes the complement of its first register to its second (R119; the order is D3's). -/
def Obligations.ComplementResult : Prop :=
  (∀ (cfg : Config) (r d : Byte) (rest : List Byte), cfg.WF →
    decode cfg (cfg.opcodes.not :: r :: d :: rest) = .instr (.not r d) rest) ∧
  (∀ (s : State) (r d : Byte), ∃ t, exec (.not r d) s = .next t ∧
    WritesRegister 3 d (255 - (s.reg r).toNat) s t)

/-- The identities of R120(e) and (g) between the results of the instructions. -/
def Obligations.ArithmeticIdentities : Prop :=
  ∀ va vb : Byte,
    aluXnr va vb = aluNot (aluXor va vb) ∧ aluNan va vb = aluNot (aluOrr va vb) ∧
    aluNor va vb = aluNot (aluAnd va vb) ∧
    aluSub va vb = aluAdd va (aluAdd (aluNot vb) 1) ∧
    (vb.toNat ≠ 0 → ∀ p, ∃ q r, aluDiv p va vb = .ok q ∧ aluMod p va vb = .ok r ∧
      va.toNat = q.toNat * vb.toNat + r.toNat ∧ r.toNat < vb.toNat)

/-! ### Calls, jumps and returns -/

/-- The predicate of every condition, on the unsigned values of the two bytes (R131). -/
def Obligations.PredicateTable : Prop :=
  ∀ va vb : Byte,
    Cond.always.holds va vb = true ∧
    (Cond.eq.holds va vb = true ↔ va.toNat = vb.toNat) ∧
    (Cond.nq.holds va vb = true ↔ va.toNat ≠ vb.toNat) ∧
    (Cond.gt.holds va vb = true ↔ va.toNat > vb.toNat) ∧
    (Cond.lt.holds va vb = true ↔ va.toNat < vb.toNat) ∧
    (Cond.ge.holds va vb = true ↔ va.toNat ≥ vb.toNat) ∧
    (Cond.le.holds va vb = true ↔ va.toNat ≤ vb.toNat)

/-- `psh` pushes the address of its last byte and moves the cursor to its target, without a check of
the target (R132, R146; D13, D18). -/
def Obligations.UnconditionalCallResult : Prop :=
  (∀ (cfg : Config) (hi lo : Byte) (rest : List Byte), cfg.WF →
    decode cfg (cfg.opcodes.psh :: hi :: lo :: rest) =
      .instr (.psh (BitVec.ofNat 16 (hi.toNat * 256 + lo.toNat))) rest) ∧
  (∀ (s : State) (target : Addr), s.cfg.WF → s.StackOk → s.sp < s.cfg.stackCap →
    ∃ t, exec (.psh target) s = .next t ∧ Called 3 target s t)

/-- The six conditional calls (R133 to R138; D4, D13). -/
def Obligations.ConditionalCallsResult : Prop :=
  ConditionalCall .teq .teq (fun x y => x = y) ∧ ConditionalCall .tnq .tnq (fun x y => x ≠ y) ∧
  ConditionalCall .tgt .tgt (fun x y => x > y) ∧ ConditionalCall .tlt .tlt (fun x y => x < y) ∧
  ConditionalCall .tge .tge (fun x y => x ≥ y) ∧ ConditionalCall .tle .tle (fun x y => x ≤ y)

/-- A call taken on a full stack faults with `STACK_OUT_OF_BOUNDS`, and no entry changes (R130,
10_state.md R20; D17). -/
def Obligations.FullStackCallFaults : Prop :=
  (∀ (s : State) (target : Addr), s.cfg.WF → s.sp = s.cfg.stackCap →
    ∃ t, exec (.psh target) s = .next t ∧ FaultedWith .stackOutOfBounds s t) ∧
  ConditionalCallOnFullStack .teq (fun x y => x = y) ∧
  ConditionalCallOnFullStack .tnq (fun x y => x ≠ y) ∧
  ConditionalCallOnFullStack .tgt (fun x y => x > y) ∧
  ConditionalCallOnFullStack .tlt (fun x y => x < y) ∧
  ConditionalCallOnFullStack .tge (fun x y => x ≥ y) ∧
  ConditionalCallOnFullStack .tle (fun x y => x ≤ y)

/-- `jmp` moves the cursor to its target and touches nothing else (R139). -/
def Obligations.UnconditionalJumpResult : Prop :=
  (∀ (cfg : Config) (hi lo : Byte) (rest : List Byte), cfg.WF →
    decode cfg (cfg.opcodes.jmp :: hi :: lo :: rest) =
      .instr (.jmp (BitVec.ofNat 16 (hi.toNat * 256 + lo.toNat))) rest) ∧
  (∀ (s : State) (target : Addr), s.cfg.WF →
    ∃ t, exec (.jmp target) s = .next t ∧ Jumped target s t)

/-- The six conditional jumps, `jle` where the configuration implements it (R140 to R145; D4, D6). -/
def Obligations.ConditionalJumpsResult : Prop :=
  ConditionalJump .jeq .jeq (fun x y => x = y) ∧ ConditionalJump .jnq .jnq (fun x y => x ≠ y) ∧
  ConditionalJump .jgt .jgt (fun x y => x > y) ∧ ConditionalJump .jlt .jlt (fun x y => x < y) ∧
  ConditionalJump .jge .jge (fun x y => x ≥ y) ∧ ConditionalJump .jle .jle (fun x y => x ≤ y)

/-- Where the configuration rejects them, `exec` of `jle` and of the conditional returns takes
`INVALID_INSTRUCTION` by itself. This is the model's own choice (log entry 10, DEDUCED): no step reaches
these arms, since the decoder refuses the byte first. What the spec says of the step at such a byte is
`NonExecutableOpcodeFaults`. -/
def Obligations.RejectedOpcodesFault : Prop :=
  (∀ (s : State) (a b : Byte) (target : Addr), s.cfg.jle = .rejected →
    ∃ t, exec (.jle a b target) s = .next t ∧ FaultedWith .invalidInstruction s t) ∧
  (∀ (s : State) (a b : Byte) (i : Instr), s.cfg.condReturn = .rejected →
    i ∈ [Instr.peq a b, .pnq a b, .pgt a b, .plt a b, .pge a b, .ple a b] →
    ∃ t, exec i s = .next t ∧ FaultedWith .invalidInstruction s t)

/-- `pop` and the conditional returns resume one past the popped entry (R156 to R162; D5, D13). -/
def Obligations.ReturnsResult : Prop :=
  ((∀ (cfg : Config) (rest : List Byte), cfg.WF →
      decode cfg (cfg.opcodes.pop :: rest) = .instr .pop rest) ∧
   (∀ (s : State) (e : Addr), s.sp ≠ 0 → s.stack[s.sp - 1]? = some e →
     ∃ t, exec .pop s = .next t ∧ Returned e s t)) ∧
  ConditionalReturn .peq .peq (fun x y => x = y) ∧ ConditionalReturn .pnq .pnq (fun x y => x ≠ y) ∧
  ConditionalReturn .pgt .pgt (fun x y => x > y) ∧ ConditionalReturn .plt .plt (fun x y => x < y) ∧
  ConditionalReturn .pge .pge (fun x y => x ≥ y) ∧ ConditionalReturn .ple .ple (fun x y => x ≤ y)

/-- A return taken on an empty stack faults with `STACK_OUT_OF_BOUNDS` (R155; D17). -/
def Obligations.EmptyStackReturnFaults : Prop :=
  (∀ s : State, s.sp = 0 → ∃ t, exec .pop s = .next t ∧ FaultedWith .stackOutOfBounds s t) ∧
  ConditionalReturnOnEmptyStack .peq (fun x y => x = y) ∧
  ConditionalReturnOnEmptyStack .pnq (fun x y => x ≠ y) ∧
  ConditionalReturnOnEmptyStack .pgt (fun x y => x > y) ∧
  ConditionalReturnOnEmptyStack .plt (fun x y => x < y) ∧
  ConditionalReturnOnEmptyStack .pge (fun x y => x ≥ y) ∧
  ConditionalReturnOnEmptyStack .ple (fun x y => x ≤ y)

/-- A return taken after a call, with the call stack as the call left it, resumes at the instruction
after the call, and the count is back (10_state.md R21, D13), whatever call it was and up to the last
byte of the longest ROM. -/
def Obligations.CallThenReturnResumes : Prop :=
  ∀ (i : Instr) (s t u : State), s.StackOk → i.opcode ∈ Opcode.calls →
    s.pc.toNat + i.opcode.length ≤ 65536 → exec i s = .next t → t.sp = s.sp + 1 →
    u.stack = t.stack → u.sp = t.sp →
      ∃ v, exec .pop u = .next v ∧ v.pc.toNat = s.pc.toNat + i.opcode.length ∧ v.sp = s.sp

/-! ### Data-skip sentinels -/

/-- `OP_IGNORE` enters ignore mode; `OP_UNIGNORE` leaves it when it is scanned, and faults with
`INVALID_INSTRUCTION` when it is met in normal mode (R170, R171; D14 to D16). That `exec` of
`OP_UNIGNORE` in ignore mode has the effect of the scan is the model's own choice (log entry 11,
DEDUCED); what the spec says of the scan is `ScanStepPassesOneByte`. -/
def Obligations.SentinelsResult : Prop :=
  (∀ (cfg : Config) (rest : List Byte), cfg.WF →
    decode cfg (cfg.opcodes.opIgnore :: rest) = .instr .opIgnore rest ∧
    decode cfg (cfg.opcodes.opUnignore :: rest) = .instr .opUnignore rest) ∧
  (∀ s : State, exec .opIgnore s =
    .next { s with ignoring := true, pc := s.pc + 1, status := some .continue_ }) ∧
  (∀ s : State, s.ignoring = true → exec .opUnignore s =
    .next { s with ignoring := false, pc := s.pc + 1, status := some .continue_ }) ∧
  (∀ s : State, s.ignoring = false →
    ∃ t, exec .opUnignore s = .next t ∧ FaultedWith .invalidInstruction s t)

/-- A data region is passed over at one step a byte, the end sentinel included, whatever its bytes are,
and normal mode resumes at the byte after it; the run is safe (46_data_skip.md R172). -/
def Obligations.DataRegionIsSkipped : Prop :=
  ∀ (s : State) (data rest : List Byte), s.RomOk → s.halt = false → s.ignoring = true →
    s.rom.drop s.pc.toNat = data ++ s.cfg.opcodes.opUnignore :: rest →
    s.cfg.opcodes.opUnignore ∉ data →
      SafeRun (data.length + 1) s ∧
      Sys2Proof.core.run (data.length + 1) s = .next { s with
        pc := BitVec.ofNat 17 (s.pc.toNat + data.length + 1), ignoring := false,
        status := some .continue_ }

/-! ### The frame transaction -/

/-- A `frame` repeats `step` while the status is `CONTINUE` and returns the first other status, which
it has no choice in and which is one of those that R79 lists; on a halted machine it performs one step
and returns `HALTED`; after `NEXT_FRAME` the machine is not halted and stands after the `nxt` (R79). -/
def Obligations.FrameRepeatsStep : Prop :=
  (∀ s t : State, FrameReturns s t ↔ ∃ n, Sys2Proof.core.run (n + 1) s = .next t ∧
    t.status ≠ some .continue_ ∧ ∀ k u, 0 < k → k ≤ n → Sys2Proof.core.run k s = .next u →
      u.status = some .continue_) ∧
  (∀ s t u : State, FrameReturns s t → FrameReturns s u → t = u) ∧
  (∀ s t : State, FrameReturns s t → ∃ st ∈ [Status.nextFrame, .halted, .invalidInstruction,
    .endOfRom, .stackOutOfBounds, .divideByZero], t.status = some st) ∧
  (∀ s : State, s.RomOk → s.halt = true →
    frame 1 s = some (.next { s with status := some .halted })) ∧
  (∀ s t : State, FrameReturns s t → t.status = some .nextFrame → t.halt = false ∧
    ∃ n u, Sys2Proof.core.run n s = .next u ∧ Dispatches u .nxt ∧ t.pc = u.pc + 1 ∧
      step u = .next t)

/-- A jump to itself makes a `frame` that never returns (R80, D25). -/
def Obligations.JumpToItselfHangsFrame : Prop :=
  ∀ (s : State) (target : Addr), s.cfg.WF → s.RomOk → Dispatches s (.jmp target) →
    target.toNat = s.pc.toNat → FrameHangs s
end

