-- ==== Sys2Proof/Laws/Decode.lean ====
section
/-! SUPPORT. The small lemmas of the opcode map and of operand bytes. -/

namespace Sys2Proof

/-- `Opcode.all` lists every opcode. -/
theorem Opcode.mem_all (op : Opcode) : op ∈ Opcode.all := by
  cases op <;> decide

/-- An instruction is at least one byte long (R50). -/
theorem Opcode.length_pos (op : Opcode) : 1 ≤ op.length := by
  cases op <;> decide

/-- An instruction is at most five bytes long (R50). -/
theorem Opcode.length_le (op : Opcode) : op.length ≤ maxInstrLen := by
  cases op <;> decide

/-- Under a map that meets R53(a), an opcode is determined by its byte. -/
theorem OpcodeMap.code_injective (m : OpcodeMap) (h : m.Distinct) (o p : Opcode)
    (he : m.code o = m.code p) : o = p :=
  List.inj_on_of_nodup_map h (Opcode.mem_all o) (Opcode.mem_all p) he

/-- The default configuration is an instance of the hardware's parameters (R53). -/
theorem Config.specDefault_wf : Config.specDefault.WF := by decide

/-- The opcode found for a byte has that byte. -/
theorem Config.code_of_opcodeOf (cfg : Config) (b : Byte) (op : Opcode)
    (h : cfg.opcodeOf b = some op) : cfg.opcodes.code op = b := by
  simpa using List.find?_some h

/-- Under a map that meets R53(a), the byte of an opcode is read as that opcode. -/
theorem Config.opcodeOf_code (cfg : Config) (h : cfg.opcodes.Distinct) (op : Opcode) :
    cfg.opcodeOf (cfg.opcodes.code op) = some op := by
  cases hf : cfg.opcodeOf (cfg.opcodes.code op) with
  | none =>
    have := List.find?_eq_none.mp hf op (Opcode.mem_all op)
    simp at this
  | some p =>
    exact congrArg some
      (OpcodeMap.code_injective _ h _ _ (Config.code_of_opcodeOf _ _ _ hf))

/-- The value of a word is its first byte times 256 plus its second (R57). -/
theorem wordOf_toNat (hi lo : Byte) : (wordOf hi lo).toNat = hi.toNat * 256 + lo.toNat := by
  have h1 := hi.isLt
  have h2 := lo.isLt
  rw [wordOf, BitVec.toNat_ofNat]
  omega

/-- A word from its own two bytes is the word. -/
@[simp] theorem wordOf_split (w : Addr) : wordOf (highByte w) (lowByte w) = w := by
  have h := w.isLt
  apply BitVec.eq_of_toNat_eq
  rw [wordOf_toNat, highByte, lowByte, BitVec.toNat_ofNat, BitVec.toNat_ofNat]
  omega

/-- The first byte of a word is the byte it was made of. -/
@[simp] theorem highByte_wordOf (hi lo : Byte) : highByte (wordOf hi lo) = hi := by
  have h1 := hi.isLt
  have h2 := lo.isLt
  apply BitVec.eq_of_toNat_eq
  rw [highByte, wordOf_toNat, BitVec.toNat_ofNat]
  omega

/-- The second byte of a word is the byte it was made of. -/
@[simp] theorem lowByte_wordOf (hi lo : Byte) : lowByte (wordOf hi lo) = lo := by
  have h1 := hi.isLt
  have h2 := lo.isLt
  apply BitVec.eq_of_toNat_eq
  rw [lowByte, wordOf_toNat, BitVec.toNat_ofNat]
  omega

/-- Under a map that meets R53(a), the byte of an opcode that the configuration does not reject is
decoded as that opcode with the operands after it. -/
theorem decode_code (cfg : Config) (h : cfg.opcodes.Distinct) (op : Opcode) (bs : List Byte)
    (hr : cfg.rejects op = false) : decode cfg (cfg.opcodes.code op :: bs) = decodeOperands op bs := by
  simp [decode, Config.opcodeOf_code cfg h op, hr]

end Sys2Proof
end

