-- ==== Sys2Proof/Laws/State.lean ====
section
/-! SUPPORT. One lemma per field per update of the state, so that no later proof unfolds an update. -/

namespace Sys2Proof.Machine

/-! `State.withPc` -/

@[simp] theorem State.cfg_withPc (s : State) (v : Cursor) : (s.withPc v).cfg = s.cfg := rfl
@[simp] theorem State.rom_withPc (s : State) (v : Cursor) : (s.withPc v).rom = s.rom := rfl
@[simp] theorem State.pc_withPc (s : State) (v : Cursor) : (s.withPc v).pc = v := rfl
@[simp] theorem State.halt_withPc (s : State) (v : Cursor) : (s.withPc v).halt = s.halt := rfl
@[simp] theorem State.ignoring_withPc (s : State) (v : Cursor) : (s.withPc v).ignoring = s.ignoring := rfl
@[simp] theorem State.regs_withPc (s : State) (v : Cursor) : (s.withPc v).regs = s.regs := rfl
@[simp] theorem State.mem_withPc (s : State) (v : Cursor) : (s.withPc v).mem = s.mem := rfl
@[simp] theorem State.stack_withPc (s : State) (v : Cursor) : (s.withPc v).stack = s.stack := rfl
@[simp] theorem State.sp_withPc (s : State) (v : Cursor) : (s.withPc v).sp = s.sp := rfl
@[simp] theorem State.status_withPc (s : State) (v : Cursor) : (s.withPc v).status = s.status := rfl

/-! `State.withHalt` -/

@[simp] theorem State.cfg_withHalt (s : State) (v : Bool) : (s.withHalt v).cfg = s.cfg := rfl
@[simp] theorem State.rom_withHalt (s : State) (v : Bool) : (s.withHalt v).rom = s.rom := rfl
@[simp] theorem State.pc_withHalt (s : State) (v : Bool) : (s.withHalt v).pc = s.pc := rfl
@[simp] theorem State.halt_withHalt (s : State) (v : Bool) : (s.withHalt v).halt = v := rfl
@[simp] theorem State.ignoring_withHalt (s : State) (v : Bool) : (s.withHalt v).ignoring = s.ignoring := rfl
@[simp] theorem State.regs_withHalt (s : State) (v : Bool) : (s.withHalt v).regs = s.regs := rfl
@[simp] theorem State.mem_withHalt (s : State) (v : Bool) : (s.withHalt v).mem = s.mem := rfl
@[simp] theorem State.stack_withHalt (s : State) (v : Bool) : (s.withHalt v).stack = s.stack := rfl
@[simp] theorem State.sp_withHalt (s : State) (v : Bool) : (s.withHalt v).sp = s.sp := rfl
@[simp] theorem State.status_withHalt (s : State) (v : Bool) : (s.withHalt v).status = s.status := rfl

/-! `State.withIgnoring` -/

@[simp] theorem State.cfg_withIgnoring (s : State) (v : Bool) : (s.withIgnoring v).cfg = s.cfg := rfl
@[simp] theorem State.rom_withIgnoring (s : State) (v : Bool) : (s.withIgnoring v).rom = s.rom := rfl
@[simp] theorem State.pc_withIgnoring (s : State) (v : Bool) : (s.withIgnoring v).pc = s.pc := rfl
@[simp] theorem State.halt_withIgnoring (s : State) (v : Bool) : (s.withIgnoring v).halt = s.halt := rfl
@[simp] theorem State.ignoring_withIgnoring (s : State) (v : Bool) : (s.withIgnoring v).ignoring = v := rfl
@[simp] theorem State.regs_withIgnoring (s : State) (v : Bool) : (s.withIgnoring v).regs = s.regs := rfl
@[simp] theorem State.mem_withIgnoring (s : State) (v : Bool) : (s.withIgnoring v).mem = s.mem := rfl
@[simp] theorem State.stack_withIgnoring (s : State) (v : Bool) : (s.withIgnoring v).stack = s.stack := rfl
@[simp] theorem State.sp_withIgnoring (s : State) (v : Bool) : (s.withIgnoring v).sp = s.sp := rfl
@[simp] theorem State.status_withIgnoring (s : State) (v : Bool) : (s.withIgnoring v).status = s.status := rfl

/-! `State.withRegs` -/

@[simp] theorem State.cfg_withRegs (s : State) (v : Vector Byte 8) : (s.withRegs v).cfg = s.cfg := rfl
@[simp] theorem State.rom_withRegs (s : State) (v : Vector Byte 8) : (s.withRegs v).rom = s.rom := rfl
@[simp] theorem State.pc_withRegs (s : State) (v : Vector Byte 8) : (s.withRegs v).pc = s.pc := rfl
@[simp] theorem State.halt_withRegs (s : State) (v : Vector Byte 8) : (s.withRegs v).halt = s.halt := rfl
@[simp] theorem State.ignoring_withRegs (s : State) (v : Vector Byte 8) : (s.withRegs v).ignoring = s.ignoring := rfl
@[simp] theorem State.regs_withRegs (s : State) (v : Vector Byte 8) : (s.withRegs v).regs = v := rfl
@[simp] theorem State.mem_withRegs (s : State) (v : Vector Byte 8) : (s.withRegs v).mem = s.mem := rfl
@[simp] theorem State.stack_withRegs (s : State) (v : Vector Byte 8) : (s.withRegs v).stack = s.stack := rfl
@[simp] theorem State.sp_withRegs (s : State) (v : Vector Byte 8) : (s.withRegs v).sp = s.sp := rfl
@[simp] theorem State.status_withRegs (s : State) (v : Vector Byte 8) : (s.withRegs v).status = s.status := rfl

/-! `State.withMem` -/

@[simp] theorem State.cfg_withMem (s : State) (v : Memory) : (s.withMem v).cfg = s.cfg := rfl
@[simp] theorem State.rom_withMem (s : State) (v : Memory) : (s.withMem v).rom = s.rom := rfl
@[simp] theorem State.pc_withMem (s : State) (v : Memory) : (s.withMem v).pc = s.pc := rfl
@[simp] theorem State.halt_withMem (s : State) (v : Memory) : (s.withMem v).halt = s.halt := rfl
@[simp] theorem State.ignoring_withMem (s : State) (v : Memory) : (s.withMem v).ignoring = s.ignoring := rfl
@[simp] theorem State.regs_withMem (s : State) (v : Memory) : (s.withMem v).regs = s.regs := rfl
@[simp] theorem State.mem_withMem (s : State) (v : Memory) : (s.withMem v).mem = v := rfl
@[simp] theorem State.stack_withMem (s : State) (v : Memory) : (s.withMem v).stack = s.stack := rfl
@[simp] theorem State.sp_withMem (s : State) (v : Memory) : (s.withMem v).sp = s.sp := rfl
@[simp] theorem State.status_withMem (s : State) (v : Memory) : (s.withMem v).status = s.status := rfl

/-! `State.withStack` -/

@[simp] theorem State.cfg_withStack (s : State) (st : List Addr) (n : Nat) : (s.withStack st n).cfg = s.cfg := rfl
@[simp] theorem State.rom_withStack (s : State) (st : List Addr) (n : Nat) : (s.withStack st n).rom = s.rom := rfl
@[simp] theorem State.pc_withStack (s : State) (st : List Addr) (n : Nat) : (s.withStack st n).pc = s.pc := rfl
@[simp] theorem State.halt_withStack (s : State) (st : List Addr) (n : Nat) : (s.withStack st n).halt = s.halt := rfl
@[simp] theorem State.ignoring_withStack (s : State) (st : List Addr) (n : Nat) : (s.withStack st n).ignoring = s.ignoring := rfl
@[simp] theorem State.regs_withStack (s : State) (st : List Addr) (n : Nat) : (s.withStack st n).regs = s.regs := rfl
@[simp] theorem State.mem_withStack (s : State) (st : List Addr) (n : Nat) : (s.withStack st n).mem = s.mem := rfl
@[simp] theorem State.stack_withStack (s : State) (st : List Addr) (n : Nat) : (s.withStack st n).stack = st := rfl
@[simp] theorem State.sp_withStack (s : State) (st : List Addr) (n : Nat) : (s.withStack st n).sp = n := rfl
@[simp] theorem State.status_withStack (s : State) (st : List Addr) (n : Nat) : (s.withStack st n).status = s.status := rfl

/-! `State.deliver` -/

@[simp] theorem State.cfg_deliver (s : State) (v : Status) : (s.deliver v).cfg = s.cfg := rfl
@[simp] theorem State.rom_deliver (s : State) (v : Status) : (s.deliver v).rom = s.rom := rfl
@[simp] theorem State.pc_deliver (s : State) (v : Status) : (s.deliver v).pc = s.pc := rfl
@[simp] theorem State.halt_deliver (s : State) (v : Status) : (s.deliver v).halt = s.halt := rfl
@[simp] theorem State.ignoring_deliver (s : State) (v : Status) : (s.deliver v).ignoring = s.ignoring := rfl
@[simp] theorem State.regs_deliver (s : State) (v : Status) : (s.deliver v).regs = s.regs := rfl
@[simp] theorem State.mem_deliver (s : State) (v : Status) : (s.deliver v).mem = s.mem := rfl
@[simp] theorem State.stack_deliver (s : State) (v : Status) : (s.deliver v).stack = s.stack := rfl
@[simp] theorem State.sp_deliver (s : State) (v : Status) : (s.deliver v).sp = s.sp := rfl
@[simp] theorem State.status_deliver (s : State) (v : Status) : (s.deliver v).status = some v := rfl

/-! `State.withRom` -/

@[simp] theorem State.cfg_withRom (s : State) (v : List Byte) : (s.withRom v).cfg = s.cfg := rfl
@[simp] theorem State.rom_withRom (s : State) (v : List Byte) : (s.withRom v).rom = v := rfl
@[simp] theorem State.pc_withRom (s : State) (v : List Byte) : (s.withRom v).pc = s.pc := rfl
@[simp] theorem State.halt_withRom (s : State) (v : List Byte) : (s.withRom v).halt = s.halt := rfl
@[simp] theorem State.ignoring_withRom (s : State) (v : List Byte) : (s.withRom v).ignoring = s.ignoring := rfl
@[simp] theorem State.regs_withRom (s : State) (v : List Byte) : (s.withRom v).regs = s.regs := rfl
@[simp] theorem State.mem_withRom (s : State) (v : List Byte) : (s.withRom v).mem = s.mem := rfl
@[simp] theorem State.stack_withRom (s : State) (v : List Byte) : (s.withRom v).stack = s.stack := rfl
@[simp] theorem State.sp_withRom (s : State) (v : List Byte) : (s.withRom v).sp = s.sp := rfl
@[simp] theorem State.status_withRom (s : State) (v : List Byte) : (s.withRom v).status = s.status := rfl

/-! `State.setReg` -/

@[simp] theorem State.cfg_setReg (s : State) (d v : Byte) : (s.setReg d v).cfg = s.cfg := rfl
@[simp] theorem State.rom_setReg (s : State) (d v : Byte) : (s.setReg d v).rom = s.rom := rfl
@[simp] theorem State.pc_setReg (s : State) (d v : Byte) : (s.setReg d v).pc = s.pc := rfl
@[simp] theorem State.halt_setReg (s : State) (d v : Byte) : (s.setReg d v).halt = s.halt := rfl
@[simp] theorem State.ignoring_setReg (s : State) (d v : Byte) : (s.setReg d v).ignoring = s.ignoring := rfl
theorem State.regs_setReg (s : State) (d v : Byte) : (s.setReg d v).regs = s.regs.set (regIndex d).val v (regIndex d).isLt := rfl
@[simp] theorem State.mem_setReg (s : State) (d v : Byte) : (s.setReg d v).mem = s.mem := rfl
@[simp] theorem State.stack_setReg (s : State) (d v : Byte) : (s.setReg d v).stack = s.stack := rfl
@[simp] theorem State.sp_setReg (s : State) (d v : Byte) : (s.setReg d v).sp = s.sp := rfl
@[simp] theorem State.status_setReg (s : State) (d v : Byte) : (s.setReg d v).status = s.status := rfl

/-! `State.advance` -/

@[simp] theorem State.cfg_advance (s : State) (n : Nat) : (s.advance n).cfg = s.cfg := rfl
@[simp] theorem State.rom_advance (s : State) (n : Nat) : (s.advance n).rom = s.rom := rfl
@[simp] theorem State.pc_advance (s : State) (n : Nat) : (s.advance n).pc = s.pc + BitVec.ofNat 17 n := rfl
@[simp] theorem State.halt_advance (s : State) (n : Nat) : (s.advance n).halt = s.halt := rfl
@[simp] theorem State.ignoring_advance (s : State) (n : Nat) : (s.advance n).ignoring = s.ignoring := rfl
@[simp] theorem State.regs_advance (s : State) (n : Nat) : (s.advance n).regs = s.regs := rfl
@[simp] theorem State.mem_advance (s : State) (n : Nat) : (s.advance n).mem = s.mem := rfl
@[simp] theorem State.stack_advance (s : State) (n : Nat) : (s.advance n).stack = s.stack := rfl
@[simp] theorem State.sp_advance (s : State) (n : Nat) : (s.advance n).sp = s.sp := rfl
@[simp] theorem State.status_advance (s : State) (n : Nat) : (s.advance n).status = s.status := rfl

/-! `State.retire` -/

@[simp] theorem State.cfg_retire (s : State) (op : Opcode) : (s.retire op).cfg = s.cfg := rfl
@[simp] theorem State.rom_retire (s : State) (op : Opcode) : (s.retire op).rom = s.rom := rfl
@[simp] theorem State.pc_retire (s : State) (op : Opcode) : (s.retire op).pc = s.pc + BitVec.ofNat 17 op.length := rfl
@[simp] theorem State.halt_retire (s : State) (op : Opcode) : (s.retire op).halt = s.halt := rfl
@[simp] theorem State.ignoring_retire (s : State) (op : Opcode) : (s.retire op).ignoring = s.ignoring := rfl
@[simp] theorem State.regs_retire (s : State) (op : Opcode) : (s.retire op).regs = s.regs := rfl
@[simp] theorem State.mem_retire (s : State) (op : Opcode) : (s.retire op).mem = s.mem := rfl
@[simp] theorem State.stack_retire (s : State) (op : Opcode) : (s.retire op).stack = s.stack := rfl
@[simp] theorem State.sp_retire (s : State) (op : Opcode) : (s.retire op).sp = s.sp := rfl
@[simp] theorem State.status_retire (s : State) (op : Opcode) : (s.retire op).status = some .continue_ := rfl

/-! `State.jumpTo` -/

@[simp] theorem State.cfg_jumpTo (s : State) (a : Addr) : (s.jumpTo a).cfg = s.cfg := rfl
@[simp] theorem State.rom_jumpTo (s : State) (a : Addr) : (s.jumpTo a).rom = s.rom := rfl
@[simp] theorem State.pc_jumpTo (s : State) (a : Addr) : (s.jumpTo a).pc = a.setWidth 17 := rfl
@[simp] theorem State.halt_jumpTo (s : State) (a : Addr) : (s.jumpTo a).halt = s.halt := rfl
@[simp] theorem State.ignoring_jumpTo (s : State) (a : Addr) : (s.jumpTo a).ignoring = s.ignoring := rfl
@[simp] theorem State.regs_jumpTo (s : State) (a : Addr) : (s.jumpTo a).regs = s.regs := rfl
@[simp] theorem State.mem_jumpTo (s : State) (a : Addr) : (s.jumpTo a).mem = s.mem := rfl
@[simp] theorem State.stack_jumpTo (s : State) (a : Addr) : (s.jumpTo a).stack = s.stack := rfl
@[simp] theorem State.sp_jumpTo (s : State) (a : Addr) : (s.jumpTo a).sp = s.sp := rfl
@[simp] theorem State.status_jumpTo (s : State) (a : Addr) : (s.jumpTo a).status = some .continue_ := rfl

/-! `State.initial` -/

@[simp] theorem State.cfg_initial (cfg : Config) (rom : List Byte) : (State.initial cfg rom).cfg = cfg := rfl
@[simp] theorem State.rom_initial (cfg : Config) (rom : List Byte) : (State.initial cfg rom).rom = rom := rfl
@[simp] theorem State.pc_initial (cfg : Config) (rom : List Byte) : (State.initial cfg rom).pc = 0 := rfl
@[simp] theorem State.halt_initial (cfg : Config) (rom : List Byte) : (State.initial cfg rom).halt = false := rfl
@[simp] theorem State.ignoring_initial (cfg : Config) (rom : List Byte) : (State.initial cfg rom).ignoring = false := rfl
@[simp] theorem State.regs_initial (cfg : Config) (rom : List Byte) : (State.initial cfg rom).regs = Vector.replicate 8 0 := rfl
@[simp] theorem State.mem_initial (cfg : Config) (rom : List Byte) : (State.initial cfg rom).mem = ⟨[]⟩ := rfl
@[simp] theorem State.stack_initial (cfg : Config) (rom : List Byte) : (State.initial cfg rom).stack = List.replicate cfg.stackCap 0 := rfl
@[simp] theorem State.sp_initial (cfg : Config) (rom : List Byte) : (State.initial cfg rom).sp = 0 := rfl
@[simp] theorem State.status_initial (cfg : Config) (rom : List Byte) : (State.initial cfg rom).status = none := rfl

/-! ### Registers -/

/-- The register an operand byte selects is its value modulo 8. -/
theorem regIndex_val (b : Byte) : (regIndex b).val = b.toNat % 8 := by
  have h : (b &&& 0x07#8).toNat = b.toNat % 8 := by
    rw [BitVec.toNat_and]
    exact Nat.and_two_pow_sub_one_eq_mod b.toNat 3
  simp [regIndex, Fin.ofNat, h]

/-- Reading a register after a write: the written value at the selected register, the old value at
every other. -/
@[simp] theorem State.get_setReg (s : State) (d v : Byte) (r : Fin 8) :
    (s.setReg d v).regs.get r = if r = regIndex d then v else s.regs.get r := by
  simp only [State.regs_setReg, Vector.get_eq_getElem, Vector.getElem_set, Fin.ext_iff,
    eq_comm (a := r.val)]

/-- The masked read after a masked write. -/
theorem State.reg_setReg (s : State) (d v b : Byte) :
    (s.setReg d v).reg b = if regIndex b = regIndex d then v else s.reg b :=
  State.get_setReg s d v (regIndex b)

/-- Reading back the register just written. -/
@[simp] theorem State.reg_setReg_self (s : State) (d v : Byte) : (s.setReg d v).reg d = v := by
  simp [State.reg_setReg]

/-! No update but a register write changes what a register reads as. -/

@[simp] theorem State.reg_withPc (s : State) (v : Cursor) (b : Byte) : (s.withPc v).reg b = s.reg b := rfl
@[simp] theorem State.reg_withHalt (s : State) (v : Bool) (b : Byte) : (s.withHalt v).reg b = s.reg b := rfl
@[simp] theorem State.reg_withIgnoring (s : State) (v : Bool) (b : Byte) : (s.withIgnoring v).reg b = s.reg b := rfl
@[simp] theorem State.reg_withMem (s : State) (v : Memory) (b : Byte) : (s.withMem v).reg b = s.reg b := rfl
@[simp] theorem State.reg_withStack (s : State) (st : List Addr) (n : Nat) (b : Byte) : (s.withStack st n).reg b = s.reg b := rfl
@[simp] theorem State.reg_deliver (s : State) (v : Status) (b : Byte) : (s.deliver v).reg b = s.reg b := rfl
@[simp] theorem State.reg_withRom (s : State) (v : List Byte) (b : Byte) : (s.withRom v).reg b = s.reg b := rfl
@[simp] theorem State.reg_advance (s : State) (n : Nat) (b : Byte) : (s.advance n).reg b = s.reg b := rfl
@[simp] theorem State.reg_retire (s : State) (op : Opcode) (b : Byte) : (s.retire op).reg b = s.reg b := rfl
@[simp] theorem State.reg_jumpTo (s : State) (a : Addr) (b : Byte) : (s.jumpTo a).reg b = s.reg b := rfl

end Sys2Proof.Machine
end

