-- ==== Sys2Proof/Laws/Memory.lean ====
section
/-! SUPPORT. The laws of data memory: read after write, and the canonical form. -/

namespace Sys2Proof.Machine

/-- The canonical form of a list of cells, as a proposition. -/
def CellsWf (cells : List Host.Cell) : Prop :=
  cells.Pairwise (fun c d => c.1 < d.1) ∧ ∀ c ∈ cells, c.1 < memSize ∧ c.2 ≠ 0#8

theorem Memory.wf_iff (m : Memory) : m.wf = true ↔ CellsWf m.cells := by
  simp [Memory.wf, CellsWf, List.all_eq_true]

theorem cellsWf_cons (c : Host.Cell) (rest : List Host.Cell) :
    CellsWf (c :: rest) ↔
      ((∀ d ∈ rest, c.1 < d.1) ∧ c.1 < memSize ∧ c.2 ≠ 0#8) ∧ CellsWf rest := by
  simp only [CellsWf, List.pairwise_cons, List.forall_mem_cons]
  tauto

/-! ### Reading -/

theorem readCells_of_lt (a : Nat) :
    ∀ cells : List Host.Cell, (∀ c ∈ cells, a < c.1) → readCells a cells = 0#8
  | [], _ => rfl
  | (b, w) :: rest, h => by
    obtain ⟨hb, hr⟩ := List.forall_mem_cons.mp h
    simp only at hb
    rw [readCells, if_neg (by omega)]
    exact readCells_of_lt a rest hr

theorem readCells_consCell (a b : Nat) (v : Byte) (rest : List Host.Cell)
    (h : readCells a rest = 0#8) :
    readCells b (consCell a v rest) = if b = a then v else readCells b rest := by
  by_cases hv : v = 0#8
  · by_cases hb : b = a
    · simp [consCell, hv, hb, h]
    · simp [consCell, hv, hb]
  · simp [consCell, hv, readCells]

/-- Reading a written list: the written byte at its address, the old byte everywhere else. -/
theorem readCells_writeCells (a : Nat) (v : Byte) (b : Nat) :
    ∀ cells : List Host.Cell, CellsWf cells →
      readCells b (writeCells a v cells) = if b = a then v else readCells b cells
  | [], _ => readCells_consCell a b v [] rfl
  | (c, w) :: rest, h => by
    obtain ⟨⟨hc, -, -⟩, hrest⟩ := (cellsWf_cons _ _).mp h
    rw [writeCells]
    rcases lt_trichotomy a c with hlt | heq | hgt
    · rw [if_pos hlt, readCells_consCell]
      exact readCells_of_lt _ _
        (List.forall_mem_cons.mpr ⟨hlt, fun d hd => lt_trans hlt (hc d hd)⟩)
    · subst heq
      rw [if_neg (lt_irrefl a), if_pos rfl,
        readCells_consCell _ _ _ _ (readCells_of_lt _ _ hc)]
      by_cases hb : b = a <;> simp [readCells, hb]
    · rw [if_neg (by omega), if_neg (by omega), readCells,
        readCells_writeCells a v b rest hrest, readCells]
      by_cases hbc : b = c
      · simp [hbc, show c ≠ a by omega]
      · simp [hbc]

/-! ### Keeping the canonical form -/

theorem consCell_wf (a : Nat) (v : Byte) (rest : List Host.Cell) (ha : a < memSize)
    (hrest : CellsWf rest) (hlt : ∀ d ∈ rest, a < d.1) : CellsWf (consCell a v rest) := by
  by_cases hv : v = 0#8
  · simpa [consCell, hv] using hrest
  · simpa [consCell, hv, cellsWf_cons, hrest, ha] using fun c w hcw => hlt (c, w) hcw

theorem writeCells_lower (a : Nat) (v : Byte) (n : Nat) (hn : n < a) :
    ∀ cells : List Host.Cell, (∀ d ∈ cells, n < d.1) → ∀ d ∈ writeCells a v cells, n < d.1
  | [], _ => by
    by_cases hv : v = 0#8 <;> simp [writeCells, consCell, hv, hn]
  | (c, w) :: rest, h => by
    obtain ⟨hc, hr⟩ := List.forall_mem_cons.mp h
    rw [writeCells]
    split_ifs with hlt heq
    · by_cases hv : v = 0#8
      · simpa [consCell, hv] using h
      · simpa [consCell, hv, hn] using h
    · by_cases hv : v = 0#8
      · simpa [consCell, hv] using hr
      · simpa [consCell, hv, hn] using hr
    · exact List.forall_mem_cons.mpr ⟨hc, writeCells_lower a v n hn rest hr⟩

theorem writeCells_wf (a : Nat) (v : Byte) (ha : a < memSize) :
    ∀ cells : List Host.Cell, CellsWf cells → CellsWf (writeCells a v cells)
  | [], h => consCell_wf a v [] ha h (by simp)
  | (c, w) :: rest, h => by
    obtain ⟨⟨hc, hcm, hw⟩, hrest⟩ := (cellsWf_cons _ _).mp h
    rw [writeCells]
    split_ifs with hlt heq
    · exact consCell_wf _ _ _ ha h
        (List.forall_mem_cons.mpr ⟨hlt, fun d hd => lt_trans hlt (hc d hd)⟩)
    · subst heq
      exact consCell_wf _ _ _ ha hrest hc
    · exact (cellsWf_cons _ _).mpr
        ⟨⟨writeCells_lower a v c (by omega) rest hc, hcm, hw⟩, writeCells_wf a v ha rest hrest⟩

/-! ### The laws of memory -/

/-- A write keeps the canonical form. -/
theorem Memory.write_wf (m : Memory) (a : Addr) (v : Byte) (h : m.wf = true) :
    (m.write a v).wf = true :=
  (Memory.wf_iff _).mpr (writeCells_wf _ _ a.isLt _ ((Memory.wf_iff _).mp h))

/-- Reading after a write: the written byte at its address, the old byte everywhere else. -/
theorem Memory.read_write (m : Memory) (a b : Addr) (v : Byte) (h : m.wf = true) :
    (m.write a v).read b = if b = a then v else m.read b := by
  simp only [Memory.read, Memory.write, readCells_writeCells _ _ _ _ ((Memory.wf_iff _).mp h),
    BitVec.toNat_inj]

/-- The memory of a machine just built has the canonical form. -/
theorem State.initial_mem_wf (cfg : Config) (rom : List Byte) :
    (State.initial cfg rom).mem.wf = true := rfl

/-- The memory of the machine after reset has the canonical form. -/
theorem State.reset_mem_wf : State.reset.mem.wf = true := rfl

/-- Every byte of the reset memory is 0 (R26). -/
theorem State.reset_mem_read (a : Addr) : State.reset.mem.read a = 0 := rfl

/-- Two canonical lists that read the same at every address are the same list. -/
theorem cells_eq_of_read_eq : ∀ xs ys : List Host.Cell, CellsWf xs → CellsWf ys →
    (∀ a, a < memSize → readCells a xs = readCells a ys) → xs = ys
  | [], [], _, _, _ => rfl
  | [], (b, w) :: ys, _, hy, h => by
    obtain ⟨⟨-, hb, hw⟩, -⟩ := (cellsWf_cons _ _).mp hy
    have := h b hb
    simp [readCells] at this
    exact absurd this.symm hw
  | (b, w) :: xs, [], hx, _, h => by
    obtain ⟨⟨-, hb, hw⟩, -⟩ := (cellsWf_cons _ _).mp hx
    have := h b hb
    simp [readCells] at this
    exact absurd this hw
  | (b, w) :: xs, (c, u) :: ys, hx, hy, h => by
    obtain ⟨⟨hxs, hb, hw⟩, hx'⟩ := (cellsWf_cons _ _).mp hx
    obtain ⟨⟨hys, hc, hu⟩, hy'⟩ := (cellsWf_cons _ _).mp hy
    simp only at hxs hys hb hc hw hu
    have hbc : b = c := by
      rcases lt_trichotomy b c with hlt | heq | hgt
      · have := h b hb
        rw [readCells, if_pos rfl, readCells_of_lt b ((c, u) :: ys)
          (List.forall_mem_cons.mpr ⟨hlt, fun d hd => lt_trans hlt (hys d hd)⟩)] at this
        exact absurd this hw
      · exact heq
      · have := h c hc
        rw [readCells_of_lt c ((b, w) :: xs)
          (List.forall_mem_cons.mpr ⟨hgt, fun d hd => lt_trans hgt (hxs d hd)⟩), readCells,
          if_pos rfl] at this
        exact absurd this.symm hu
    subst hbc
    have hwu : w = u := by simpa [readCells] using h b hb
    subst hwu
    refine congrArg _ (cells_eq_of_read_eq xs ys hx' hy' fun a ha => ?_)
    by_cases hab : a = b
    · subst hab
      rw [readCells_of_lt a xs hxs, readCells_of_lt a ys hys]
    · simpa [readCells, hab] using h a ha

/-- Canonical memories that read the same everywhere are equal. -/
theorem Memory.eq_of_read_eq (m n : Memory) (hm : m.wf = true) (hn : n.wf = true)
    (h : ∀ a : Addr, m.read a = n.read a) : m = n := by
  obtain ⟨xs⟩ := m
  obtain ⟨ys⟩ := n
  refine congrArg Memory.mk (cells_eq_of_read_eq xs ys ((Memory.wf_iff _).mp hm)
    ((Memory.wf_iff _).mp hn) fun a ha => ?_)
  have := h (BitVec.ofNat 16 a)
  simpa [Memory.read, Nat.mod_eq_of_lt (show a < 65536 from ha)] using this

end Sys2Proof.Machine
end

