-- ==== Sys2Proof/Laws/Ops.lean ====
section
/-! SUPPORT. For each shared operation, one lemma that says everything it can do. -/

namespace Sys2Proof.Machine

/-! ### Faults -/

/-- `raise` answers the one state that differs in `HALT` and the delivered status. -/
theorem raise_eq_next (st : Status) (s t : State) :
    raise st s = .next t ↔ t = (s.withHalt true).deliver st := by
  simp [raise, eq_comm]

/-- `commit` answers the effect's own state, or raises from the state the step began in. -/
theorem commit_eq_next (s t : State) (effect : Except Status State) :
    commit s effect = .next t ↔
      effect = .ok t ∨ ∃ st, effect = .error st ∧ t = (s.withHalt true).deliver st := by
  cases effect <;> simp [commit, raise, eq_comm]

@[simp] theorem commit_ok (s t : State) : commit s (.ok t) = .next t := rfl

@[simp] theorem commit_error (s : State) (st : Status) : commit s (.error st) = raise st s := rfl

/-! ### Data memory -/

/-- A read of data memory answers the byte: its bound check never fails (20_memory.md R32). -/
@[simp] theorem memRead_eq (a : Addr) (s : State) : memRead a s = .ok (s.mem.read a) := by
  have : ¬ memSize ≤ a.toNat := not_le.mpr a.isLt
  simp [memRead, this]

/-- A write of data memory completes: its bound check never fails (20_memory.md R32). -/
@[simp] theorem memWrite_eq (a : Addr) (v : Byte) (s : State) :
    memWrite a v s = .ok (s.withMem (s.mem.write a v)) := by
  have : ¬ memSize ≤ a.toNat := not_le.mpr a.isLt
  simp [memWrite, this]

/-! ### Call stack -/

theorem push_full (v : Addr) (s : State) (h : s.sp = s.cfg.stackCap) :
    push v s = .error .stackOutOfBounds := by
  simp [push, h]

theorem push_room (v : Addr) (s : State) (h : s.sp ≠ s.cfg.stackCap) :
    push v s = .ok (s.withStack (s.stack.set s.sp v) (s.sp + 1)) := by
  simp [push, h]

theorem pop_empty (s : State) (h : s.sp = 0) : pop s = .error .stackOutOfBounds := by
  simp [pop, h]

theorem pop_entry (s : State) (h : s.sp ≠ 0) :
    pop s = .ok (s.stack.getD (s.sp - 1) 0, s.withStack s.stack (s.sp - 1)) := by
  simp [pop, h]

/-! ### Division -/

theorem aluDiv_nonzero (p : DivZeroPolicy) (va vb : Byte) (h : vb ≠ 0#8) :
    aluDiv p va vb = .ok (va / vb) := by
  simp [aluDiv, h]

theorem aluMod_nonzero (p : DivZeroPolicy) (va vb : Byte) (h : vb ≠ 0#8) :
    aluMod p va vb = .ok (va % vb) := by
  simp [aluMod, h]

/-! ### Shared routines of the families -/

/-- `threeReg` completes with one register written. -/
theorem threeReg_eq (op : Opcode) (f : Byte → Byte → Byte) (a b d : Byte) (s : State) :
    threeReg op f a b d s = .next ((s.setReg d (f (s.reg a) (s.reg b))).retire op) := rfl

/-- `threeRegMayRaise` completes with one register written, or raises what its function raises. -/
theorem threeRegMayRaise_eq_next (op : Opcode) (f : Byte → Byte → Except Status Byte) (a b d : Byte)
    (s t : State) :
    threeRegMayRaise op f a b d s = .next t ↔
      (∃ v, f (s.reg a) (s.reg b) = .ok v ∧ t = (s.setReg d v).retire op) ∨
      (∃ st, f (s.reg a) (s.reg b) = .error st ∧ t = (s.withHalt true).deliver st) := by
  cases h : f (s.reg a) (s.reg b) <;>
    simp [threeRegMayRaise, h, Except.map, raise, eq_comm]

/-- A transfer falls through, moves the cursor (having pushed, if it is a call), or raises because the
stack is full. -/
theorem transfer_eq_next (op : Opcode) (taken : Bool) (target : Addr) (s t : State) :
    transfer op taken target s = .next t ↔
      (taken = false ∧ t = s.retire op) ∨
      (taken = true ∧ s.isCall op = false ∧ t = s.jumpTo target) ∨
      (taken = true ∧ s.isCall op = true ∧ s.sp ≠ s.cfg.stackCap ∧
        t = (s.withStack (s.stack.set s.sp (returnEntry op s)) (s.sp + 1)).jumpTo target) ∨
      (taken = true ∧ s.isCall op = true ∧ s.sp = s.cfg.stackCap ∧
        t = (s.withHalt true).deliver .stackOutOfBounds) := by
  cases taken <;> cases hc : s.isCall op <;> by_cases hs : s.sp = s.cfg.stackCap <;>
    simp [transfer, hc, hs, push, Except.map, raise, eq_comm]

/-- A return falls through, resumes after the popped entry, or raises because the stack is empty. -/
theorem returnWhen_eq_next (op : Opcode) (taken : Bool) (s t : State) :
    returnWhen op taken s = .next t ↔
      (taken = false ∧ t = s.retire op) ∨
      (taken = true ∧ s.sp ≠ 0 ∧
        t = ((s.withStack s.stack (s.sp - 1)).withPc
              ((s.stack.getD (s.sp - 1) 0).setWidth 17 + 1)).deliver .continue_) ∨
      (taken = true ∧ s.sp = 0 ∧ t = (s.withHalt true).deliver .stackOutOfBounds) := by
  cases taken <;> by_cases hs : s.sp = 0 <;>
    simp [returnWhen, hs, pop, Except.map, raise, eq_comm]

/-- A conditional return is the shared routine where the configuration implements it, and
`INVALID_INSTRUCTION` where it rejects it. -/
theorem returnIf_eq (op : Opcode) (cc : Cond) (a b : Byte) (s : State) :
    returnIf op cc a b s =
      match s.cfg.condReturn with
      | .implemented => returnWhen op (cc.holds (s.reg a) (s.reg b)) s
      | .rejected => raise .invalidInstruction s := rfl

/-- The ignore-mode scan moves the cursor on by one byte, and leaves ignore mode exactly on the end
sentinel. -/
theorem scanByte_eq (b : Byte) (s : State) (h : s.ignoring = true) :
    scanByte b s = .next
      (((s.withIgnoring (decide (b ≠ s.cfg.opcodes.opUnignore))).advance 1).deliver .continue_) := by
  by_cases hb : b = s.cfg.opcodes.opUnignore
  · simp [scanByte, execOpUnignore, hb, h, State.retire, Opcode.length, Opcode.format,
      Format.length]
  · simp [scanByte, hb, State.withIgnoring, State.advance, State.withPc, State.deliver, h]

/-! ### Fetch -/

/-- A ROM is refused exactly when its length is outside 1 to 65536. -/
theorem romRefusal_eq_none (rom : List Byte) :
    romRefusal rom = none ↔ 1 ≤ rom.length ∧ rom.length ≤ maxRomLen := by
  unfold romRefusal
  split_ifs with h1 h2
  · simp; omega
  · simp; omega
  · simp; omega

/-- The fetch finds no byte exactly when the cursor is at or past the end of the ROM. -/
theorem fetchByte_eq_none (s : State) : fetchByte s = none ↔ s.rom.length ≤ s.pc.toNat := by
  simp [fetchByte]

end Sys2Proof.Machine
end

