-- ==== Sys2Proof/Laws/Exec.lean ====
section
/-! SUPPORT. What an instruction can do, and what a step can do: one inversion lemma for each. -/

namespace Sys2Proof.Machine

/-! ### One instruction -/

/-- The ways an instruction can complete. -/
inductive ExecCase (i : Instr) (s : State) : State → Prop
  /-- nothing but the cursor's advance: `nop`, or a transfer or return not taken -/
  | fellThrough (h : i = .nop ∨ i.opcode ∈ Opcode.calls ++ Opcode.jumps ++ Opcode.returns) :
      ExecCase i s (s.retire i.opcode)
  /-- `nxt` -/
  | nextFrame (h : i = .nxt) : ExecCase i s ((s.advance 1).deliver .nextFrame)
  /-- `hlt` -/
  | halted (h : i = .hlt) : ExecCase i s ((s.withHalt true).deliver .halted)
  /-- the destination register is written -/
  | wroteRegister (d v : Byte) (h : destinationRegister i = some d) :
      ExecCase i s ((s.setReg d v).retire i.opcode)
  /-- a byte of data memory is written -/
  | wroteMemory (a : Addr) (v : Byte) (h : storeAddress i = some a) :
      ExecCase i s ((s.withMem (s.mem.write a v)).retire i.opcode)
  /-- a transfer is taken without a push -/
  | jumped (g : Addr) (h : i.opcode ∈ Opcode.calls ++ Opcode.jumps) (hc : s.isCall i.opcode = false) :
      ExecCase i s (s.jumpTo g)
  /-- a transfer is taken with a push -/
  | called (g : Addr) (h : i.opcode ∈ Opcode.calls ++ Opcode.jumps) (hc : s.isCall i.opcode = true)
      (hs : s.sp ≠ s.cfg.stackCap) :
      ExecCase i s
        ((s.withStack (s.stack.set s.sp (returnEntry i.opcode s)) (s.sp + 1)).jumpTo g)
  /-- a return is taken -/
  | returned (h : i.opcode ∈ Opcode.returns) (hs : s.sp ≠ 0) :
      ExecCase i s (((s.withStack s.stack (s.sp - 1)).withPc
        ((s.stack.getD (s.sp - 1) 0).setWidth 17 + 1)).deliver .continue_)
  /-- `OP_IGNORE` -/
  | ignore (h : i = .opIgnore) : ExecCase i s ((s.withIgnoring true).retire .opIgnore)
  /-- `OP_UNIGNORE` in ignore mode -/
  | unignore (h : i = .opUnignore) (hs : s.ignoring = true) :
      ExecCase i s ((s.withIgnoring false).retire .opUnignore)
  /-- a fault -/
  | faulted (st : Status) (h : st = .invalidInstruction ∨ st = .stackOutOfBounds ∨
      st = .divideByZero) : ExecCase i s ((s.withHalt true).deliver st)

theorem execCase_of_transfer (i : Instr) (s t : State) (taken : Bool) (g : Addr)
    (hi : i.opcode ∈ Opcode.calls ++ Opcode.jumps) (h : transfer i.opcode taken g s = .next t) :
    ExecCase i s t := by
  rcases (transfer_eq_next _ _ _ _ _).mp h with
    ⟨-, rfl⟩ | ⟨-, hc, rfl⟩ | ⟨-, hc, hs, rfl⟩ | ⟨-, -, -, rfl⟩
  · exact .fellThrough (.inr (List.mem_append_left _ hi))
  · exact .jumped g hi hc
  · exact .called g hi hc hs
  · exact .faulted _ (by simp)

theorem execCase_of_returnWhen (i : Instr) (s t : State) (taken : Bool)
    (hi : i.opcode ∈ Opcode.returns) (h : returnWhen i.opcode taken s = .next t) :
    ExecCase i s t := by
  rcases (returnWhen_eq_next _ _ _ _).mp h with ⟨-, rfl⟩ | ⟨-, hs, rfl⟩ | ⟨-, -, rfl⟩
  · exact .fellThrough (.inr (List.mem_append_right _ hi))
  · exact .returned hi hs
  · exact .faulted _ (by simp)

theorem execCase_of_returnIf (i : Instr) (cc : Cond) (a b : Byte) (s t : State)
    (hi : i.opcode ∈ Opcode.returns) (h : returnIf i.opcode cc a b s = .next t) :
    ExecCase i s t := by
  rw [returnIf_eq] at h
  cases hc : s.cfg.condReturn with
  | implemented =>
    rw [hc] at h
    exact execCase_of_returnWhen i s t _ hi h
  | rejected =>
    rw [hc] at h
    rw [(raise_eq_next _ _ _).mp h]
    exact .faulted _ (by simp)

theorem execCase_of_div (i : Instr) (f : Byte → Byte → Except Status Byte) (a b d : Byte)
    (s t : State) (hd : destinationRegister i = some d)
    (hf : ∀ x y st, f x y = .error st → st = .divideByZero)
    (h : threeRegMayRaise i.opcode f a b d s = .next t) : ExecCase i s t := by
  rcases (threeRegMayRaise_eq_next _ _ _ _ _ _ _).mp h with ⟨v, -, rfl⟩ | ⟨st, hst, rfl⟩
  · exact .wroteRegister d v hd
  · exact .faulted _ (by simp [hf _ _ _ hst])

theorem aluDiv_error (p : DivZeroPolicy) (x y : Byte) (st : Status) (h : aluDiv p x y = .error st) :
    st = .divideByZero := by
  unfold aluDiv at h
  split_ifs at h
  cases p <;> simp_all

theorem aluMod_error (p : DivZeroPolicy) (x y : Byte) (st : Status) (h : aluMod p x y = .error st) :
    st = .divideByZero := by
  unfold aluMod at h
  split_ifs at h
  cases p <;> simp_all

/-- The next state of an instruction is one of the cases of `ExecCase`. -/
theorem exec_cases (i : Instr) (s t : State) (h : exec i s = .next t) : ExecCase i s t := by
  cases i with
  | nop => cases h; exact .fellThrough (.inl rfl)
  | nxt => cases h; exact .nextFrame rfl
  | hlt => cases h; exact .halted rfl
  | smr addr r =>
    simp only [exec, execSmr, memWrite_eq, Except.map, commit_ok] at h
    cases h; exact .wroteMemory addr _ rfl
  | smb addr imm =>
    simp only [exec, execSmb, memWrite_eq, Except.map, commit_ok] at h
    cases h; exact .wroteMemory addr _ rfl
  | srm d addr =>
    simp only [exec, execSrm, memRead_eq, Except.map, commit_ok] at h
    cases h; exact .wroteRegister d _ rfl
  | srb d _ | srr d _ | not _ d => cases h; exact .wroteRegister d _ rfl
  | add _ _ d | sub _ _ d | mul _ _ d | xor _ _ d | and _ _ d | orr _ _ d | xnr _ _ d | nan _ _ d
  | nor _ _ d | bsl _ _ d | bsr _ _ d => cases h; exact .wroteRegister d _ rfl
  | div a b d => exact execCase_of_div _ _ a b d s t rfl (aluDiv_error _) h
  | mod a b d => exact execCase_of_div _ _ a b d s t rfl (aluMod_error _) h
  | psh g | jmp g =>
    exact execCase_of_transfer _ s t true g (by simp [Instr.opcode, Opcode.calls, Opcode.jumps]) h
  | teq a b g | tnq a b g | tgt a b g | tlt a b g | tge a b g | tle a b g
  | jeq a b g | jnq a b g | jgt a b g | jlt a b g | jge a b g =>
    exact execCase_of_transfer _ s t _ g (by simp [Instr.opcode, Opcode.calls, Opcode.jumps]) h
  | jle a b g =>
    cases hj : s.cfg.jle with
    | implemented =>
      simp only [exec, execJle, hj] at h
      exact execCase_of_transfer _ s t _ g (by simp [Instr.opcode, Opcode.jumps]) h
    | rejected =>
      simp only [exec, execJle, hj] at h
      rw [(raise_eq_next _ _ _).mp h]
      exact .faulted _ (by simp)
  | pop => exact execCase_of_returnWhen _ s t true (by simp [Instr.opcode, Opcode.returns]) h
  | peq a b | pnq a b | pgt a b | plt a b | pge a b | ple a b =>
    exact execCase_of_returnIf _ _ a b s t (by simp [Instr.opcode, Opcode.returns]) h
  | opIgnore => cases h; exact .ignore rfl
  | opUnignore =>
    simp only [exec, execOpUnignore] at h
    split_ifs at h with hs
    · cases h; exact .unignore rfl hs
    · rw [(raise_eq_next _ _ _).mp h]
      exact .faulted _ (by simp)

/-! ### One step -/

/-- A ROM that a machine can have been built with is not refused. -/
theorem State.romRefusal_none (s : State) : romRefusal s.rom = none ↔ s.RomOk :=
  romRefusal_eq_none s.rom

/-- The ways a step can complete. -/
inductive StepCase (s : State) : State → Prop
  /-- the machine is halted -/
  | halted (h : s.halt = true) : StepCase s (s.deliver .halted)
  /-- the cursor is at or past the end of the ROM -/
  | pastRom (hr : s.halt = false) (h : s.rom.length ≤ s.pc.toNat) :
      StepCase s ((s.withHalt true).deliver .endOfRom)
  /-- a byte is scanned in ignore mode -/
  | scanned (b : Byte) (hr : s.halt = false) (hi : s.ignoring = true)
      (hb : s.rom[s.pc.toNat]? = some b) :
      StepCase s
        (((s.withIgnoring (decide (b ≠ s.cfg.opcodes.opUnignore))).advance 1).deliver .continue_)
  /-- an instruction is dispatched -/
  | dispatched (i : Instr) (t : State) (hd : Dispatches s i) (h : exec i s = .next t) : StepCase s t
  /-- the opcode byte decodes to nothing -/
  | invalid (b : Byte) (hr : s.halt = false) (hi : s.ignoring = false)
      (hb : decode s.cfg (s.rom.drop s.pc.toNat) = .invalidOpcode b) :
      StepCase s ((s.withHalt true).deliver .invalidInstruction)
  /-- the ROM ends inside the instruction -/
  | truncated (hr : s.halt = false) (hi : s.ignoring = false)
      (hb : decode s.cfg (s.rom.drop s.pc.toNat) = .endOfRom) :
      StepCase s ((s.withHalt true).deliver .endOfRom)

/-- The next state of a step is one of the cases of `StepCase`, and there is a machine. -/
theorem step_cases (s t : State) (h : step s = .next t) : s.RomOk ∧ StepCase s t := by
  unfold step cycle at h
  cases hrom : romRefusal s.rom with
  | some r => rw [hrom] at h; cases h
  | none =>
    refine ⟨(State.romRefusal_none s).mp hrom, ?_⟩
    simp only [hrom] at h
    cases hh : s.halt with
    | true => rw [if_pos hh] at h; cases h; exact .halted hh
    | false =>
      rw [if_neg (by simp [hh])] at h
      cases hf : fetchByte s with
      | none =>
        simp only [hf] at h
        rw [(raise_eq_next _ _ _).mp h]
        exact .pastRom hh ((fetchByte_eq_none s).mp hf)
      | some b =>
        simp only [hf] at h
        cases hi : s.ignoring with
        | true =>
          rw [if_pos hi, scanByte_eq b s hi] at h
          cases h
          exact .scanned b hh hi hf
        | false =>
          rw [if_neg (by simp [hi])] at h
          cases hd : fetchDecode s with
          | instr i rest => simp only [hd] at h; exact .dispatched i t ⟨hh, hi, rest, hd⟩ h
          | invalidOpcode c =>
            simp only [hd] at h
            rw [(raise_eq_next _ _ _).mp h]
            exact .invalid c hh hi hd
          | endOfRom =>
            simp only [hd] at h
            rw [(raise_eq_next _ _ _).mp h]
            exact .truncated hh hi hd

/-- A step of a machine whose ROM is one that it can have been built with. -/
theorem step_eq (s : State) (h : s.RomOk) : step s =
    if s.halt then .next (s.deliver .halted)
    else
      match fetchByte s with
      | none => raise .endOfRom s
      | some b =>
        if s.ignoring then scanByte b s
        else
          match fetchDecode s with
          | .instr i _ => exec i s
          | .invalidOpcode _ => raise .invalidInstruction s
          | .endOfRom => raise .endOfRom s := by
  simp only [step, cycle, (State.romRefusal_none s).mpr h] <;> rfl

/-- The bytes from the cursor on begin with the byte at the cursor. -/
theorem drop_pc_eq_cons (s : State) (b : Byte) (hb : s.rom[s.pc.toNat]? = some b) :
    s.rom.drop s.pc.toNat = b :: s.rom.drop (s.pc.toNat + 1) := by
  obtain ⟨h, he⟩ := List.getElem?_eq_some_iff.mp hb
  rw [List.drop_eq_getElem_cons h, he]

/-- There is a byte at the cursor of a machine that dispatches an instruction. -/
theorem Dispatches.exists_byte {s : State} {i : Instr} (h : Dispatches s i) :
    ∃ b, s.rom[s.pc.toNat]? = some b := by
  obtain ⟨-, -, r, hr⟩ := h
  cases hb : s.rom[s.pc.toNat]? with
  | some b => exact ⟨b, rfl⟩
  | none =>
    rw [List.getElem?_eq_none_iff] at hb
    rw [List.drop_eq_nil_of_le hb] at hr
    simp [decode] at hr

/-- A state dispatches at most one instruction. -/
theorem Dispatches.unique {s : State} {i j : Instr} (h : Dispatches s i) (h' : Dispatches s j) :
    i = j := by
  obtain ⟨-, -, r, hr⟩ := h
  obtain ⟨-, -, r', hr'⟩ := h'
  rw [hr] at hr'
  cases hr'
  rfl

/-! ### Runs and frames -/

/-- The first step of a run. -/
theorem run_succ_of_step (n : Nat) (s u : State) (h : step s = .next u) :
    Sys2Proof.core.run (n + 1) s = Sys2Proof.core.run n u := by
  have hs : Sys2Proof.core.step s = .next u := h
  refine (Host.Core.run.eq_2 Sys2Proof.core s n).trans ?_
  simp only [hs]

/-- A run that completes is a step and the rest of the run. -/
theorem exists_step_of_run_succ (n : Nat) (s t : State)
    (h : Sys2Proof.core.run (n + 1) s = .next t) :
    ∃ u, step s = .next u ∧ Sys2Proof.core.run n u = .next t := by
  have h' := (Host.Core.run.eq_2 Sys2Proof.core s n).symm.trans h
  split at h'
  · rename_i u hu
    exact ⟨u, hu, h'⟩
  · cases h'
  · cases h'

/-- The first step of a frame. -/
theorem frame_succ_of_step (n : Nat) (s u : State) (h : step s = .next u) :
    frame (n + 1) s = if u.status = some .continue_ then frame n u else some (.next u) := by
  simp [frame, h]

end Sys2Proof.Machine
end

