-- ==== Sys2Proof/Laws/PerInstr.lean ====
section
/-! SUPPORT. Statements made per instruction: one lemma per constructor. -/

/-- Encoding an instruction gives as many bytes as its opcode says (30_encoding.md R58), under every
opcode map. -/
def Sys2Proof.Laws.EncodeLength.Statement (i : Sys2Proof.Instr) : Prop :=
  ∀ m : Sys2Proof.OpcodeMap, (Sys2Proof.encode m i).length = i.opcode.length

namespace Sys2Proof.Laws

theorem EncodeLength.nop : EncodeLength.Statement .nop := fun _ => rfl
theorem EncodeLength.nxt : EncodeLength.Statement .nxt := fun _ => rfl
theorem EncodeLength.hlt : EncodeLength.Statement .hlt := fun _ => rfl
theorem EncodeLength.smr (addr : Addr) (r : Byte) : EncodeLength.Statement (.smr addr r) := fun _ => rfl
theorem EncodeLength.srm (d : Byte) (addr : Addr) : EncodeLength.Statement (.srm d addr) := fun _ => rfl
theorem EncodeLength.srb (d : Byte) (imm : Byte) : EncodeLength.Statement (.srb d imm) := fun _ => rfl
theorem EncodeLength.smb (addr : Addr) (imm : Byte) : EncodeLength.Statement (.smb addr imm) := fun _ => rfl
theorem EncodeLength.srr (d : Byte) (r : Byte) : EncodeLength.Statement (.srr d r) := fun _ => rfl
theorem EncodeLength.add (a : Byte) (b : Byte) (d : Byte) : EncodeLength.Statement (.add a b d) := fun _ => rfl
theorem EncodeLength.sub (a : Byte) (b : Byte) (d : Byte) : EncodeLength.Statement (.sub a b d) := fun _ => rfl
theorem EncodeLength.mul (a : Byte) (b : Byte) (d : Byte) : EncodeLength.Statement (.mul a b d) := fun _ => rfl
theorem EncodeLength.div (a : Byte) (b : Byte) (d : Byte) : EncodeLength.Statement (.div a b d) := fun _ => rfl
theorem EncodeLength.mod (a : Byte) (b : Byte) (d : Byte) : EncodeLength.Statement (.mod a b d) := fun _ => rfl
theorem EncodeLength.xor (a : Byte) (b : Byte) (d : Byte) : EncodeLength.Statement (.xor a b d) := fun _ => rfl
theorem EncodeLength.and (a : Byte) (b : Byte) (d : Byte) : EncodeLength.Statement (.and a b d) := fun _ => rfl
theorem EncodeLength.orr (a : Byte) (b : Byte) (d : Byte) : EncodeLength.Statement (.orr a b d) := fun _ => rfl
theorem EncodeLength.xnr (a : Byte) (b : Byte) (d : Byte) : EncodeLength.Statement (.xnr a b d) := fun _ => rfl
theorem EncodeLength.nan (a : Byte) (b : Byte) (d : Byte) : EncodeLength.Statement (.nan a b d) := fun _ => rfl
theorem EncodeLength.nor (a : Byte) (b : Byte) (d : Byte) : EncodeLength.Statement (.nor a b d) := fun _ => rfl
theorem EncodeLength.bsl (a : Byte) (b : Byte) (d : Byte) : EncodeLength.Statement (.bsl a b d) := fun _ => rfl
theorem EncodeLength.bsr (a : Byte) (b : Byte) (d : Byte) : EncodeLength.Statement (.bsr a b d) := fun _ => rfl
theorem EncodeLength.not (r : Byte) (d : Byte) : EncodeLength.Statement (.not r d) := fun _ => rfl
theorem EncodeLength.psh (target : Addr) : EncodeLength.Statement (.psh target) := fun _ => rfl
theorem EncodeLength.teq (a : Byte) (b : Byte) (target : Addr) : EncodeLength.Statement (.teq a b target) := fun _ => rfl
theorem EncodeLength.tnq (a : Byte) (b : Byte) (target : Addr) : EncodeLength.Statement (.tnq a b target) := fun _ => rfl
theorem EncodeLength.tgt (a : Byte) (b : Byte) (target : Addr) : EncodeLength.Statement (.tgt a b target) := fun _ => rfl
theorem EncodeLength.tlt (a : Byte) (b : Byte) (target : Addr) : EncodeLength.Statement (.tlt a b target) := fun _ => rfl
theorem EncodeLength.tge (a : Byte) (b : Byte) (target : Addr) : EncodeLength.Statement (.tge a b target) := fun _ => rfl
theorem EncodeLength.tle (a : Byte) (b : Byte) (target : Addr) : EncodeLength.Statement (.tle a b target) := fun _ => rfl
theorem EncodeLength.jmp (target : Addr) : EncodeLength.Statement (.jmp target) := fun _ => rfl
theorem EncodeLength.jeq (a : Byte) (b : Byte) (target : Addr) : EncodeLength.Statement (.jeq a b target) := fun _ => rfl
theorem EncodeLength.jnq (a : Byte) (b : Byte) (target : Addr) : EncodeLength.Statement (.jnq a b target) := fun _ => rfl
theorem EncodeLength.jgt (a : Byte) (b : Byte) (target : Addr) : EncodeLength.Statement (.jgt a b target) := fun _ => rfl
theorem EncodeLength.jlt (a : Byte) (b : Byte) (target : Addr) : EncodeLength.Statement (.jlt a b target) := fun _ => rfl
theorem EncodeLength.jge (a : Byte) (b : Byte) (target : Addr) : EncodeLength.Statement (.jge a b target) := fun _ => rfl
theorem EncodeLength.jle (a : Byte) (b : Byte) (target : Addr) : EncodeLength.Statement (.jle a b target) := fun _ => rfl
theorem EncodeLength.pop : EncodeLength.Statement .pop := fun _ => rfl
theorem EncodeLength.peq (a : Byte) (b : Byte) : EncodeLength.Statement (.peq a b) := fun _ => rfl
theorem EncodeLength.pnq (a : Byte) (b : Byte) : EncodeLength.Statement (.pnq a b) := fun _ => rfl
theorem EncodeLength.pgt (a : Byte) (b : Byte) : EncodeLength.Statement (.pgt a b) := fun _ => rfl
theorem EncodeLength.plt (a : Byte) (b : Byte) : EncodeLength.Statement (.plt a b) := fun _ => rfl
theorem EncodeLength.pge (a : Byte) (b : Byte) : EncodeLength.Statement (.pge a b) := fun _ => rfl
theorem EncodeLength.ple (a : Byte) (b : Byte) : EncodeLength.Statement (.ple a b) := fun _ => rfl
theorem EncodeLength.opIgnore : EncodeLength.Statement .opIgnore := fun _ => rfl
theorem EncodeLength.opUnignore : EncodeLength.Statement .opUnignore := fun _ => rfl

end Sys2Proof.Laws
end

