-- ==== Sys2Proof/Tests/Slice0.lean ====
section
/-! SUPPORT. Tests. The bytes of the decode tests are written out from the formats and the opcode table
of spec/30_encoding.md (R52, R54); the expected results of the step tests are those of the vectors of
spec/95_test_vectors.md, named in each docstring. Last stand the witnesses: for each statement with
hypotheses, a concrete state and operands that meet them. -/

namespace Sys2Proof.Tests

open Sys2Proof.Machine Sys2Proof.Claims

/-! ### Helpers -/

/-- The default parameters with a call stack of four entries. -/
def small : Config := { Config.specDefault with stackCap := 4 }

/-- `small` with the opcodes that can be rejected rejected, and the zero-divisor policy `value`. -/
def strict : Config := { small with jle := .rejected, condReturn := .rejected, divZero := .value }

/-- A machine right after construction with a ROM. -/
def boot (rom : List Byte) : State := State.initial small rom

/-- Write registers. -/
def withX (s : State) (xs : List (Byte × Byte)) : State :=
  xs.foldl (fun s p => s.setReg p.1 p.2) s

/-- Two registers to compare, and one entry on the call stack. -/
def pair (rom : List Byte) (x1 x2 : Byte) : State :=
  { withX (boot rom) [(1, x1), (2, x2)] with stack := [0x0004, 0, 0, 0], sp := 1 }

/-- The state after one step. -/
def after (s : State) : Option State :=
  match step s with
  | .next t => some t
  | .fault _ => none
  | .refused _ => none

/-- What a step leaves: one register, the cursor, and the status. -/
def seen (r : Byte) (s : State) : Option (Byte × Nat × Option Status) :=
  (after s).map (fun t => (t.reg r, t.pc.toNat, t.status))

/-- What a step leaves: the cursor, the count, the lowest slot of the call stack, and the status. -/
def flow (s : State) : Option (Nat × Nat × Option Addr × Option Status) :=
  (after s).map (fun t => (t.pc.toNat, t.sp, t.stack[0]?, t.status))

/-! ### Well-formedness: what a configuration rejects is refused -/

theorem test_wf_jle_rejected : (Instr.jle 1 2 0x10).wellFormed strict = false := by decide

theorem test_wf_peq_rejected : (Instr.peq 1 2).wellFormed strict = false := by decide

theorem test_wf_pnq_rejected : (Instr.pnq 1 2).wellFormed strict = false := by decide

theorem test_wf_pgt_rejected : (Instr.pgt 1 2).wellFormed strict = false := by decide

theorem test_wf_plt_rejected : (Instr.plt 1 2).wellFormed strict = false := by decide

theorem test_wf_pge_rejected : (Instr.pge 1 2).wellFormed strict = false := by decide

theorem test_wf_ple_rejected : (Instr.ple 1 2).wellFormed strict = false := by decide

theorem test_wf_pop_not_rejected : Instr.pop.wellFormed strict = true := by decide

/-- R53(a): a map that gives two opcodes one byte is no map of this hardware. -/
theorem test_wf_map_distinct :
    ¬ ({ Config.specDefault.opcodes with nxt := 0x00 } : OpcodeMap).Distinct := by decide

/-- R53(b): nor is one with a call at or above the threshold. -/
theorem test_wf_map_threshold :
    ¬ ({ Config.specDefault.opcodes with jmpThreshold := 0x46 } : OpcodeMap).Threshold := by decide

/-! ### Decoding: one word of every row, its opcode byte in bits; the byte 0x77 follows it -/

theorem test_decode_nop : decode Config.specDefault [0b0000_0000, 0x77] =
    .instr .nop [0x77] := by decide

theorem test_decode_nxt : decode Config.specDefault [0b0000_0001, 0x77] =
    .instr .nxt [0x77] := by decide

theorem test_decode_hlt : decode Config.specDefault [0b0000_0010, 0x77] =
    .instr .hlt [0x77] := by decide

theorem test_decode_smr : decode Config.specDefault [0b0001_0000, 0x12, 0x34, 3, 0x77] =
    .instr (.smr 0x1234 3) [0x77] := by decide

theorem test_decode_srm : decode Config.specDefault [0b0001_0001, 3, 0x12, 0x34, 0x77] =
    .instr (.srm 3 0x1234) [0x77] := by decide

theorem test_decode_srb : decode Config.specDefault [0b0001_0010, 1, 0xFF, 0x77] =
    .instr (.srb 1 0xFF) [0x77] := by decide

theorem test_decode_smb : decode Config.specDefault [0b0001_0011, 0x12, 0x34, 0xAB, 0x77] =
    .instr (.smb 0x1234 0xAB) [0x77] := by decide

theorem test_decode_srr : decode Config.specDefault [0b0001_0100, 1, 0xFA, 0x77] =
    .instr (.srr 1 0xFA) [0x77] := by decide

theorem test_decode_add : decode Config.specDefault [0b0010_0000, 1, 0xFA, 3, 0x77] =
    .instr (.add 1 0xFA 3) [0x77] := by decide

theorem test_decode_sub : decode Config.specDefault [0b0010_0001, 1, 0xFA, 3, 0x77] =
    .instr (.sub 1 0xFA 3) [0x77] := by decide

theorem test_decode_mul : decode Config.specDefault [0b0010_0010, 1, 0xFA, 3, 0x77] =
    .instr (.mul 1 0xFA 3) [0x77] := by decide

theorem test_decode_div : decode Config.specDefault [0b0010_0011, 1, 0xFA, 3, 0x77] =
    .instr (.div 1 0xFA 3) [0x77] := by decide

theorem test_decode_mod : decode Config.specDefault [0b0010_0100, 1, 0xFA, 3, 0x77] =
    .instr (.mod 1 0xFA 3) [0x77] := by decide

theorem test_decode_xor : decode Config.specDefault [0b0010_0101, 1, 0xFA, 3, 0x77] =
    .instr (.xor 1 0xFA 3) [0x77] := by decide

theorem test_decode_and : decode Config.specDefault [0b0010_0110, 1, 0xFA, 3, 0x77] =
    .instr (.and 1 0xFA 3) [0x77] := by decide

theorem test_decode_orr : decode Config.specDefault [0b0010_0111, 1, 0xFA, 3, 0x77] =
    .instr (.orr 1 0xFA 3) [0x77] := by decide

theorem test_decode_xnr : decode Config.specDefault [0b0010_1000, 1, 0xFA, 3, 0x77] =
    .instr (.xnr 1 0xFA 3) [0x77] := by decide

theorem test_decode_nan : decode Config.specDefault [0b0010_1001, 1, 0xFA, 3, 0x77] =
    .instr (.nan 1 0xFA 3) [0x77] := by decide

theorem test_decode_nor : decode Config.specDefault [0b0010_1010, 1, 0xFA, 3, 0x77] =
    .instr (.nor 1 0xFA 3) [0x77] := by decide

theorem test_decode_bsl : decode Config.specDefault [0b0010_1011, 1, 0xFA, 3, 0x77] =
    .instr (.bsl 1 0xFA 3) [0x77] := by decide

theorem test_decode_bsr : decode Config.specDefault [0b0010_1100, 1, 0xFA, 3, 0x77] =
    .instr (.bsr 1 0xFA 3) [0x77] := by decide

theorem test_decode_not : decode Config.specDefault [0b0011_0000, 1, 0xFA, 0x77] =
    .instr (.not 1 0xFA) [0x77] := by decide

theorem test_decode_psh : decode Config.specDefault [0b0100_0000, 0x12, 0x34, 0x77] =
    .instr (.psh 0x1234) [0x77] := by decide

theorem test_decode_teq : decode Config.specDefault [0b0100_0001, 1, 0xFA, 0x12, 0x34, 0x77] =
    .instr (.teq 1 0xFA 0x1234) [0x77] := by decide

theorem test_decode_tnq : decode Config.specDefault [0b0100_0010, 1, 0xFA, 0x12, 0x34, 0x77] =
    .instr (.tnq 1 0xFA 0x1234) [0x77] := by decide

theorem test_decode_tgt : decode Config.specDefault [0b0100_0011, 1, 0xFA, 0x12, 0x34, 0x77] =
    .instr (.tgt 1 0xFA 0x1234) [0x77] := by decide

theorem test_decode_tlt : decode Config.specDefault [0b0100_0100, 1, 0xFA, 0x12, 0x34, 0x77] =
    .instr (.tlt 1 0xFA 0x1234) [0x77] := by decide

theorem test_decode_tge : decode Config.specDefault [0b0100_0101, 1, 0xFA, 0x12, 0x34, 0x77] =
    .instr (.tge 1 0xFA 0x1234) [0x77] := by decide

theorem test_decode_tle : decode Config.specDefault [0b0100_0110, 1, 0xFA, 0x12, 0x34, 0x77] =
    .instr (.tle 1 0xFA 0x1234) [0x77] := by decide

theorem test_decode_jmp : decode Config.specDefault [0b0100_1000, 0x12, 0x34, 0x77] =
    .instr (.jmp 0x1234) [0x77] := by decide

theorem test_decode_jeq : decode Config.specDefault [0b0100_1001, 1, 0xFA, 0x12, 0x34, 0x77] =
    .instr (.jeq 1 0xFA 0x1234) [0x77] := by decide

theorem test_decode_jnq : decode Config.specDefault [0b0100_1010, 1, 0xFA, 0x12, 0x34, 0x77] =
    .instr (.jnq 1 0xFA 0x1234) [0x77] := by decide

theorem test_decode_jgt : decode Config.specDefault [0b0100_1011, 1, 0xFA, 0x12, 0x34, 0x77] =
    .instr (.jgt 1 0xFA 0x1234) [0x77] := by decide

theorem test_decode_jlt : decode Config.specDefault [0b0100_1100, 1, 0xFA, 0x12, 0x34, 0x77] =
    .instr (.jlt 1 0xFA 0x1234) [0x77] := by decide

theorem test_decode_jge : decode Config.specDefault [0b0100_1101, 1, 0xFA, 0x12, 0x34, 0x77] =
    .instr (.jge 1 0xFA 0x1234) [0x77] := by decide

theorem test_decode_jle : decode Config.specDefault [0b0100_1110, 1, 0xFA, 0x12, 0x34, 0x77] =
    .instr (.jle 1 0xFA 0x1234) [0x77] := by decide

theorem test_decode_pop : decode Config.specDefault [0b0101_0000, 0x77] =
    .instr .pop [0x77] := by decide

theorem test_decode_peq : decode Config.specDefault [0b0101_0001, 1, 0xFA, 0x77] =
    .instr (.peq 1 0xFA) [0x77] := by decide

theorem test_decode_pnq : decode Config.specDefault [0b0101_0010, 1, 0xFA, 0x77] =
    .instr (.pnq 1 0xFA) [0x77] := by decide

theorem test_decode_pgt : decode Config.specDefault [0b0101_0011, 1, 0xFA, 0x77] =
    .instr (.pgt 1 0xFA) [0x77] := by decide

theorem test_decode_plt : decode Config.specDefault [0b0101_0100, 1, 0xFA, 0x77] =
    .instr (.plt 1 0xFA) [0x77] := by decide

theorem test_decode_pge : decode Config.specDefault [0b0101_0101, 1, 0xFA, 0x77] =
    .instr (.pge 1 0xFA) [0x77] := by decide

theorem test_decode_ple : decode Config.specDefault [0b0101_0110, 1, 0xFA, 0x77] =
    .instr (.ple 1 0xFA) [0x77] := by decide

theorem test_decode_opIgnore : decode Config.specDefault [0b1111_1110, 0x77] =
    .instr .opIgnore [0x77] := by decide

theorem test_decode_opUnignore : decode Config.specDefault [0b1111_1111, 0x77] =
    .instr .opUnignore [0x77] := by decide

/-- R57: the words of a table row, numbered as the table numbers them. -/
theorem test_decode_table_word : decodeTableWord 40 0x3412020149 = some (.jeq 1 2 0x1234) := by decide

/-- Decision D22: a byte that is no opcode is refused before an operand is looked for. -/
theorem test_decode_invalid_last : decode Config.specDefault [0x0F] = .invalidOpcode 0x0F := by decide

/-- R75: an instruction that does not fit. -/
theorem test_decode_truncated : decode Config.specDefault [0x41, 1, 2, 0] = .endOfRom := by decide

/-! ### State and reset -/

theorem test_reset_reads_zero : State.reset.reg 7 = 0 ∧ State.reset.mem.read 0xFFFF = 0 ∧
    State.reset.pc = 0 ∧ State.reset.halt = false ∧ State.reset.ignoring = false ∧
    State.reset.sp = 0 ∧ State.reset.status = none := by decide

theorem test_reset_has_no_rom : step State.reset = .refused .noRom := by rfl

/-- A write of the value that an unlisted address reads as removes the entry. -/
theorem test_memory_canonical :
    (((⟨[]⟩ : Memory).write 0x10 7).write 0x02 9).cells = [(2, 9), (16, 7)] ∧
    ((((⟨[]⟩ : Memory).write 0x10 7).write 0x02 9).write 0x10 0).cells = [(2, 9)] := by decide

/-- Decision D9. -/
theorem test_status_codes : [Status.continue_, .nextFrame, .halted, .invalidInstruction, .endOfRom,
    .memoryOutOfBounds, .stackOutOfBounds, .divideByZero].map Status.code = [0, 1, 2, 3, 4, 5, 6, 7] :=
  by decide

theorem test_fetch_word_after_reset :
    seen 1 (State.reset.withFetchWord 24 0xFF0112) = some (0xFF, 3, some .continue_) := by decide

theorem test_fetch_word_resumes :
    (after { State.reset.withFetchWord 8 0x02 with ignoring := true } |>.map (·.halt)) = some false ∧
    ({ State.reset with halt := true, ignoring := true }.withFetchWord 8 0x02).halt = false := by
  decide

/-! ### Steps: control -/

/-- V-C1 -/
theorem test_nop : seen 1 (boot [0x00]) = some (0, 1, some .continue_) := by decide

/-- V-C2 -/
theorem test_nxt : seen 1 (boot [0x01]) = some (0, 1, some .nextFrame) := by decide

/-- V-C3 -/
theorem test_hlt : seen 1 (boot [0x02]) = some (0, 0, some .halted) ∧
    (after (boot [0x02])).map (·.halt) = some true := by decide

/-- V-F10 -/
theorem test_halted : seen 1 { boot [0x00] with halt := true } = some (0, 0, some .halted) := by decide

/-! ### Steps: moves -/

/-- V-M9 -/
theorem test_smr : (after (withX (boot [0x10, 0x12, 0x34, 3]) [(3, 0x0F)])).map
    (fun t => (t.mem.read 0x1234, t.reg 3, t.pc.toNat)) = some (0x0F, 0x0F, 4) := by decide

/-- V-M10 -/
theorem test_srm : seen 3 ((boot [0x11, 3, 0x12, 0x34]).withMem ⟨[(0x1234, 0x5C)]⟩) =
    some (0x5C, 4, some .continue_) := by decide

/-- V-M11 -/
theorem test_srm_unlisted : seen 3 (withX (boot [0x11, 3, 0x12, 0x34]) [(3, 0x77)]) =
    some (0x00, 4, some .continue_) := by decide

/-- V-M2 -/
theorem test_srb_masked : seen 1 (boot [0x12, 0x09, 0x7F]) = some (0x7F, 3, some .continue_) := by decide

/-- V-M4 -/
theorem test_srb_register_zero : seen 0 (boot [0x12, 0xF8, 0xAA]) =
    some (0xAA, 3, some .continue_) := by decide

/-- V-M6 -/
theorem test_smb_big_endian : (after (boot [0x13, 0x01, 0x02, 0xAA])).map
    (fun t => (t.mem.read 0x0102, t.mem.read 0x0201, t.pc.toNat)) = some (0xAA, 0, 4) := by decide

/-- V-M7 -/
theorem test_smb_highest : (after (boot [0x13, 0xFF, 0xFF, 0x01])).map
    (fun t => (t.mem.read 0xFFFF, t.status)) = some (0x01, some .continue_) := by decide

/-- V-M12 -/
theorem test_srr : seen 1 (withX (boot [0x14, 1, 2]) [(2, 0x11)]) =
    some (0x11, 3, some .continue_) := by decide

/-! ### Steps: arithmetic, bitwise, shift, complement -/

/-- V-A1 -/
theorem test_add_wraps : seen 3 (withX (boot [0x20, 1, 2, 3]) [(1, 0xFA), (2, 0x0A), (3, 0xEE)]) =
    some (0x04, 4, some .continue_) := by decide

/-- V-A5 -/
theorem test_sub_borrows : seen 3 (withX (boot [0x21, 1, 2, 3]) [(1, 0x03), (2, 0x05), (3, 0xEE)]) =
    some (0xFE, 4, some .continue_) := by decide

/-- V-A51 -/
theorem test_add_aliased : seen 1 (withX (boot [0x20, 1, 1, 1]) [(1, 0x80)]) =
    some (0x00, 4, some .continue_) := by decide


/-- V-A11 -/
theorem test_mul_wraps : seen 3 (withX (boot [0x22, 1, 2, 3]) [(1, 0xC8), (2, 0x02), (3, 0xEE)]) =
    some (0x90, 4, some .continue_) := by decide

/-- V-A14 -/
theorem test_div : seen 3 (withX (boot [0x23, 1, 2, 3]) [(1, 0x64), (2, 0x07), (3, 0xEE)]) =
    some (0x0E, 4, some .continue_) := by decide

/-- V-A19 -/
theorem test_div_zero : seen 3 (withX (boot [0x23, 1, 2, 3]) [(1, 5), (3, 0xEE)]) =
    some (0xEE, 0, some .divideByZero) := by decide

/-- V-A22 -/
theorem test_mod : seen 3 (withX (boot [0x24, 1, 2, 3]) [(1, 0xFF), (2, 0x10), (3, 0xEE)]) =
    some (0x0F, 4, some .continue_) := by decide

/-- V-A60 -/
theorem test_mod_zero_value : seen 3 (withX (State.initial strict [0x24, 1, 2, 3]) [(1, 9)]) =
    some (0x09, 4, some .continue_) := by decide

/-- V-A25 -/
theorem test_xor : seen 3 (withX (boot [0x25, 1, 2, 3]) [(1, 0xF0), (2, 0x3C), (3, 0xEE)]) =
    some (0xCC, 4, some .continue_) := by decide

/-- V-A26 -/
theorem test_and : seen 3 (withX (boot [0x26, 1, 2, 3]) [(1, 0xF0), (2, 0x3C), (3, 0xEE)]) =
    some (0x30, 4, some .continue_) := by decide

/-- V-A27 -/
theorem test_orr : seen 3 (withX (boot [0x27, 1, 2, 3]) [(1, 0xF0), (2, 0x3C), (3, 0xEE)]) =
    some (0xFC, 4, some .continue_) := by decide

/-- V-A28 -/
theorem test_xnr : seen 3 (withX (boot [0x28, 1, 2, 3]) [(1, 0xF0), (2, 0x3C), (3, 0xEE)]) =
    some (0x33, 4, some .continue_) := by decide

/-- V-A29 -/
theorem test_nan_is_not_or : seen 3 (withX (boot [0x29, 1, 2, 3]) [(1, 0xF0), (2, 0x3C), (3, 0xEE)]) =
    some (0x03, 4, some .continue_) := by decide

/-- V-A30 -/
theorem test_nor_is_not_and : seen 3 (withX (boot [0x2A, 1, 2, 3]) [(1, 0xF0), (2, 0x3C), (3, 0xEE)]) =
    some (0xCF, 4, some .continue_) := by decide

/-- V-A40 -/
theorem test_bsl : seen 3 (withX (boot [0x2B, 1, 2, 3]) [(1, 0x81), (2, 0x01), (3, 0xEE)]) =
    some (0x02, 4, some .continue_) := by decide

/-- V-A42 -/
theorem test_bsl_count_8 : seen 3 (withX (boot [0x2B, 1, 2, 3]) [(1, 0x01), (2, 0x08), (3, 0xEE)]) =
    some (0x00, 4, some .continue_) := by decide

/-- V-A46 -/
theorem test_bsr_logical : seen 3 (withX (boot [0x2C, 1, 2, 3]) [(1, 0x80), (2, 0x01), (3, 0xEE)]) =
    some (0x40, 4, some .continue_) := by decide

/-- V-A49 -/
theorem test_bsr_count_200 : seen 3 (withX (boot [0x2C, 1, 2, 3]) [(1, 0xFF), (2, 0xC8), (3, 0xEE)]) =
    some (0x00, 4, some .continue_) := by decide

/-- V-A55 -/
theorem test_not : seen 2 (withX (boot [0x30, 1, 2]) [(1, 0x0F), (2, 0xEE)]) =
    some (0xF0, 3, some .continue_) := by decide

/-! ### Steps: calls and jumps -/

/-- V-B10 -/
theorem test_psh : flow (boot [0x40, 0x00, 0x09]) =
    some (0x0009, 1, some 0x0002, some .continue_) := by decide

/-- V-B11 for `psh`: nothing but `HALT` changes on a full stack. -/
theorem test_psh_full : flow { boot [0x40, 0x00, 0x09] with stack := [0x55, 6, 7, 8], sp := 4 } =
    some (0, 4, some 0x0055, some .stackOutOfBounds) := by decide

/-- V-B1 -/
theorem test_teq_taken :
    flow (withX (boot [0x41, 1, 2, 0x00, 0x10]) [(1, 5), (2, 5)]) =
      some (0x0010, 1, some 0x0004, some .continue_) := by decide

/-- V-B1 -/
theorem test_teq_not_taken :
    flow (withX (boot [0x41, 1, 2, 0x00, 0x10]) [(1, 3), (2, 5)]) =
      some (0x0005, 0, some 0, some .continue_) := by decide

/-- V-B2 -/
theorem test_tnq_taken :
    flow (withX (boot [0x42, 1, 2, 0x00, 0x10]) [(1, 0), (2, 255)]) =
      some (0x0010, 1, some 0x0004, some .continue_) := by decide

/-- V-B2 -/
theorem test_tnq_not_taken :
    flow (withX (boot [0x42, 1, 2, 0x00, 0x10]) [(1, 5), (2, 5)]) =
      some (0x0005, 0, some 0, some .continue_) := by decide

/-- V-B3 -/
theorem test_tgt_taken :
    flow (withX (boot [0x43, 1, 2, 0x00, 0x10]) [(1, 200), (2, 100)]) =
      some (0x0010, 1, some 0x0004, some .continue_) := by decide

/-- V-B3 -/
theorem test_tgt_not_taken :
    flow (withX (boot [0x43, 1, 2, 0x00, 0x10]) [(1, 0), (2, 255)]) =
      some (0x0005, 0, some 0, some .continue_) := by decide

/-- V-B4 -/
theorem test_tlt_taken :
    flow (withX (boot [0x44, 1, 2, 0x00, 0x10]) [(1, 0), (2, 255)]) =
      some (0x0010, 1, some 0x0004, some .continue_) := by decide

/-- V-B4 -/
theorem test_tlt_not_taken :
    flow (withX (boot [0x44, 1, 2, 0x00, 0x10]) [(1, 200), (2, 100)]) =
      some (0x0005, 0, some 0, some .continue_) := by decide

/-- V-B5 -/
theorem test_tge_taken :
    flow (withX (boot [0x45, 1, 2, 0x00, 0x10]) [(1, 200), (2, 100)]) =
      some (0x0010, 1, some 0x0004, some .continue_) := by decide

/-- V-B5 -/
theorem test_tge_not_taken :
    flow (withX (boot [0x45, 1, 2, 0x00, 0x10]) [(1, 0), (2, 255)]) =
      some (0x0005, 0, some 0, some .continue_) := by decide

/-- V-B6 -/
theorem test_tle_taken :
    flow (withX (boot [0x46, 1, 2, 0x00, 0x10]) [(1, 5), (2, 5)]) =
      some (0x0010, 1, some 0x0004, some .continue_) := by decide

/-- V-B6 -/
theorem test_tle_not_taken :
    flow (withX (boot [0x46, 1, 2, 0x00, 0x10]) [(1, 200), (2, 100)]) =
      some (0x0005, 0, some 0, some .continue_) := by decide

/-- V-B7 -/
theorem test_jmp : flow (boot [0x48, 0x12, 0x34]) =
    some (0x1234, 0, some 0, some .continue_) := by decide

/-- V-B1 -/
theorem test_jeq_taken :
    flow (withX (boot [0x49, 1, 2, 0x00, 0x10]) [(1, 5), (2, 5)]) =
      some (0x0010, 0, some 0, some .continue_) := by decide

/-- V-B1 -/
theorem test_jeq_not_taken :
    flow (withX (boot [0x49, 1, 2, 0x00, 0x10]) [(1, 3), (2, 5)]) =
      some (0x0005, 0, some 0, some .continue_) := by decide

/-- V-B2 -/
theorem test_jnq_taken :
    flow (withX (boot [0x4A, 1, 2, 0x00, 0x10]) [(1, 0), (2, 255)]) =
      some (0x0010, 0, some 0, some .continue_) := by decide

/-- V-B2 -/
theorem test_jnq_not_taken :
    flow (withX (boot [0x4A, 1, 2, 0x00, 0x10]) [(1, 5), (2, 5)]) =
      some (0x0005, 0, some 0, some .continue_) := by decide

/-- V-B3 -/
theorem test_jgt_taken :
    flow (withX (boot [0x4B, 1, 2, 0x00, 0x10]) [(1, 200), (2, 100)]) =
      some (0x0010, 0, some 0, some .continue_) := by decide

/-- V-B3 -/
theorem test_jgt_not_taken :
    flow (withX (boot [0x4B, 1, 2, 0x00, 0x10]) [(1, 0), (2, 255)]) =
      some (0x0005, 0, some 0, some .continue_) := by decide

/-- V-B4 -/
theorem test_jlt_taken :
    flow (withX (boot [0x4C, 1, 2, 0x00, 0x10]) [(1, 0), (2, 255)]) =
      some (0x0010, 0, some 0, some .continue_) := by decide

/-- V-B4 -/
theorem test_jlt_not_taken :
    flow (withX (boot [0x4C, 1, 2, 0x00, 0x10]) [(1, 200), (2, 100)]) =
      some (0x0005, 0, some 0, some .continue_) := by decide

/-- V-B5 -/
theorem test_jge_taken :
    flow (withX (boot [0x4D, 1, 2, 0x00, 0x10]) [(1, 200), (2, 100)]) =
      some (0x0010, 0, some 0, some .continue_) := by decide

/-- V-B5 -/
theorem test_jge_not_taken :
    flow (withX (boot [0x4D, 1, 2, 0x00, 0x10]) [(1, 0), (2, 255)]) =
      some (0x0005, 0, some 0, some .continue_) := by decide

/-- V-B6 -/
theorem test_jle_taken :
    flow (withX (boot [0x4E, 1, 2, 0x00, 0x10]) [(1, 5), (2, 5)]) =
      some (0x0010, 0, some 0, some .continue_) := by decide

/-- V-B6 -/
theorem test_jle_not_taken :
    flow (withX (boot [0x4E, 1, 2, 0x00, 0x10]) [(1, 200), (2, 100)]) =
      some (0x0005, 0, some 0, some .continue_) := by decide

/-! ### Steps: returns -/

/-- V-R3: last in, first out, and the slot keeps its value. -/
theorem test_pop : (after { boot [0x50] with stack := [0x10, 0x20, 0, 0], sp := 2 }).map
    (fun t => (t.pc.toNat, t.sp, t.stack)) = some (0x0021, 1, [0x10, 0x20, 0, 0]) := by decide

/-- V-R10: the cursor is a 17-bit value. -/
theorem test_pop_last : flow { boot [0x50] with stack := [0xFFFF, 0, 0, 0], sp := 1 } =
    some (0x10000, 0, some 0xFFFF, some .continue_) := by decide

/-- V-R4, V-R5 -/
theorem test_peq_taken : flow (pair [0x51, 1, 2] 5 5) =
    some (0x0005, 0, some 0x0004, some .continue_) := by decide

/-- V-R4, V-R5 -/
theorem test_peq_not_taken : flow (pair [0x51, 1, 2] 3 5) =
    some (0x0003, 1, some 0x0004, some .continue_) := by decide

/-- V-R8 -/
theorem test_pnq_taken : flow (pair [0x52, 1, 2] 0 255) =
    some (0x0005, 0, some 0x0004, some .continue_) := by decide

/-- V-R8 -/
theorem test_pnq_not_taken : flow (pair [0x52, 1, 2] 5 5) =
    some (0x0003, 1, some 0x0004, some .continue_) := by decide

/-- V-R8 -/
theorem test_pgt_taken : flow (pair [0x53, 1, 2] 200 100) =
    some (0x0005, 0, some 0x0004, some .continue_) := by decide

/-- V-R8 -/
theorem test_pgt_not_taken : flow (pair [0x53, 1, 2] 0 255) =
    some (0x0003, 1, some 0x0004, some .continue_) := by decide

/-- V-R8 -/
theorem test_plt_taken : flow (pair [0x54, 1, 2] 0 255) =
    some (0x0005, 0, some 0x0004, some .continue_) := by decide

/-- V-R8 -/
theorem test_plt_not_taken : flow (pair [0x54, 1, 2] 200 100) =
    some (0x0003, 1, some 0x0004, some .continue_) := by decide

/-- V-R8 -/
theorem test_pge_taken : flow (pair [0x55, 1, 2] 200 100) =
    some (0x0005, 0, some 0x0004, some .continue_) := by decide

/-- V-R8 -/
theorem test_pge_not_taken : flow (pair [0x55, 1, 2] 0 255) =
    some (0x0003, 1, some 0x0004, some .continue_) := by decide

/-- V-R8 -/
theorem test_ple_taken : flow (pair [0x56, 1, 2] 5 5) =
    some (0x0005, 0, some 0x0004, some .continue_) := by decide

/-- V-R8 -/
theorem test_ple_not_taken : flow (pair [0x56, 1, 2] 200 100) =
    some (0x0003, 1, some 0x0004, some .continue_) := by decide

/-! ### Steps: data skip and faults of the dispatcher -/

/-- V-D1, step 1 -/
theorem test_op_ignore : (after (boot [0xFE, 0x61])).map (fun t => (t.ignoring, t.pc.toNat, t.status)) =
    some (true, 1, some .continue_) := by decide

/-- V-D4, step 2: no nesting. -/
theorem test_scan_op_ignore : (after { boot [0xFE] with ignoring := true }).map
    (fun t => (t.ignoring, t.pc.toNat, t.status)) = some (true, 1, some .continue_) := by decide

/-- V-D1, step 4 -/
theorem test_op_unignore : (after { boot [0xFF] with ignoring := true }).map
    (fun t => (t.ignoring, t.pc.toNat, t.status)) = some (false, 1, some .continue_) := by decide

/-- V-D6 -/
theorem test_op_unignore_stray : (after (boot [0xFF])).map
    (fun t => (t.halt, t.pc.toNat, t.status)) = some (true, 0, some .invalidInstruction) := by decide

/-- V-F1 -/
theorem test_invalid : seen 1 (boot [0x03]) = some (0, 0, some .invalidInstruction) := by decide

/-- V-F7: the operand fetch precedes the effect. -/
theorem test_truncated_div : seen 1 (boot [0x23, 1, 2]) = some (0, 0, some .endOfRom) := by decide

/-- V-B15 -/
theorem test_jle_rejected : flow (State.initial strict [0x4E]) =
    some (0, 0, some 0, some .invalidInstruction) := by decide

/-- V-D3, step 2 -/
theorem test_scan_past_rom : (after { boot [0xFE] with ignoring := true, pc := 1 }).map
    (fun t => (t.halt, t.ignoring, t.pc.toNat, t.status)) = some (true, true, 1, some .endOfRom) := by
  decide

/-- V-C6 -/
theorem test_frame : (match frame 3 (boot [0x00, 0x00, 0x01, 0x02]) with
    | some (.next t) => some (t.pc.toNat, t.status)
    | _ => none) = some (3, some .nextFrame) := by decide

/-! ### Witnesses

For each statement with hypotheses, concrete values that meet them together: for a statement with
several clauses, values for each, at the ends of their ranges. -/

theorem small_wf : small.WF := by decide

theorem strict_wf : strict.WF := by decide

/-- A machine with two registers set. -/
def cmp (x1 x2 : Byte) : State := withX (boot [0x00]) [(1, x1), (2, x2)]

/-- A machine with the longest ROM. -/
def longest : State := boot (List.replicate 65536 0)

theorem longest_rom_length : longest.rom.length = 65536 :=
  List.length_replicate (n := 65536) (a := (0 : Byte))

theorem longest_rom_ok : longest.RomOk :=
  ⟨by rw [longest_rom_length]; decide, by rw [longest_rom_length]; decide⟩

theorem witness_DecodeEncodeRoundTrip :
    (Config.specDefault.WF ∧ (Instr.jle 0xFF 0xFF 0xFFFF).wellFormed Config.specDefault = true) ∧
    (strict.WF ∧ Instr.opUnignore.wellFormed strict = true) := by decide

theorem witness_EncodeDecodeRoundTrip :
    decode strict [0x13, 0xFF, 0xFF, 0xFF, 0x07] = .instr (.smb 0xFFFF 0xFF) [0x07] := by decide

theorem witness_UnlistedBytesAreInvalid :
    (0x51 ≤ (0x51 : Byte).toNat ∧ (0x51 : Byte).toNat ≤ 0x56) ∧
    (0x51 ≤ (0x56 : Byte).toNat ∧ (0x56 : Byte).toNat ≤ 0x56) := by decide

theorem witness_TruncatedBytesAreEndOfRom :
    small.WF ∧ decode small [] = .endOfRom ∧ decode small [0x41, 1, 2, 3] = .endOfRom ∧
    [0x41#8, 1, 2, 3].length + 1 = Opcode.teq.length := by decide

theorem witness_StepRunsDecodedInstruction :
    (boot [0x00]).RomOk ∧ Dispatches (boot [0x00]) .nop :=
  ⟨⟨by decide, by decide⟩, rfl, rfl, [], by decide⟩

theorem witness_HaltedMachineStaysHalted :
    ((boot [0x00]).withHalt true).RomOk ∧ ((boot [0x00]).withHalt true).halt = true :=
  ⟨⟨by decide, by decide⟩, rfl⟩

theorem witness_HaltedMachineStaysHalted_terminal :
    (∃ t, step (boot [0x02]) = .next t ∧ t.status = some .halted) ∧
    (∃ t, step (boot [0x03]) = .next t ∧ t.status = some .invalidInstruction) :=
  ⟨⟨_, rfl, by decide⟩, ⟨_, rfl, by decide⟩⟩

/-- In normal mode and in ignore mode, one past the last byte. -/
theorem witness_FetchPastRomFaults :
    ∀ ig ∈ [false, true],
      let s := { boot [0x00] with pc := 1, ignoring := ig }
      s.RomOk ∧ s.halt = false ∧ s.rom.length ≤ s.pc.toNat :=
  have h : (boot [0x00]).RomOk := ⟨by decide, by decide⟩
  fun _ _ => ⟨h, rfl, Nat.le_refl 1⟩

theorem witness_FetchPastRomFaults_longest :
    let s := { longest with pc := 65536 }
    s.RomOk ∧ s.halt = false ∧ s.rom.length ≤ s.pc.toNat :=
  ⟨longest_rom_ok, rfl, longest_rom_length.le⟩

theorem witness_ScanStepPassesOneByte :
    let s := { boot [0xFE, 0xFF] with ignoring := true }
    (s.RomOk ∧ s.halt = false ∧ s.ignoring = true ∧ s.rom[s.pc.toNat]? = some 0xFE) ∧
    ({ s with pc := 1 } : State).rom[({ s with pc := 1 } : State).pc.toNat]? = some 0xFF :=
  ⟨⟨⟨by decide, by decide⟩, rfl, rfl, rfl⟩, rfl⟩

/-- One byte of each kind: in no row, the end sentinel, a rejected `jle`, a rejected return. -/
theorem witness_NonExecutableOpcodeFaults :
    strict.WF ∧ ∀ b ∈ [0x03#8, 0xFF, 0x4E, 0x56],
      (State.initial strict [b]).RomOk ∧ (State.initial strict [b]).halt = false ∧
      (State.initial strict [b]).ignoring = false ∧
      (State.initial strict [b]).rom[(State.initial strict [b]).pc.toNat]? = some b ∧
      NotExecutable (State.initial strict [b]).cfg b := by
  refine ⟨strict_wf, ?_⟩
  intro b hb
  simp only [List.mem_cons, List.not_mem_nil, or_false] at hb
  rcases hb with rfl | rfl | rfl | rfl
  · exact ⟨⟨by decide, by decide⟩, rfl, rfl, rfl, .inl (by intro op; cases op <;> decide)⟩
  · exact ⟨⟨by decide, by decide⟩, rfl, rfl, rfl, .inr (.inl rfl)⟩
  · exact ⟨⟨by decide, by decide⟩, rfl, rfl, rfl, .inr (.inr (.inl ⟨rfl, rfl⟩))⟩
  · exact ⟨⟨by decide, by decide⟩, rfl, rfl, rfl, .inr (.inr (.inr ⟨rfl, by decide⟩))⟩

theorem witness_TruncatedInstructionFaults :
    let s := boot [0x4E, 1, 2, 0]
    s.cfg.WF ∧ s.RomOk ∧ s.halt = false ∧ s.ignoring = false ∧
    s.rom[s.pc.toNat]? = some (s.cfg.opcodes.code .jle) ∧ Implemented s.cfg .jle ∧
    s.rom.length + 1 = s.pc.toNat + Opcode.jle.length :=
  ⟨small_wf, ⟨by decide, by decide⟩, rfl, rfl, rfl, ⟨fun _ => rfl, fun _ => rfl⟩, rfl⟩

theorem witness_StepStopsOnlyWithoutMachine :
    (boot [0x00]).RomOk ∧ longest.RomOk ∧ ¬ State.reset.RomOk :=
  ⟨⟨by decide, by decide⟩, longest_rom_ok, fun h => absurd h.1 (by decide)⟩

theorem witness_invariant (rom : List Byte) (h : rom.length ≤ maxRomLen) : (boot rom).Inv :=
  ⟨small_wf, h, by simp [boot, State.initial], by simp [boot, State.initial], by constructor <;> simp [boot, State.initial],
    rfl, by simp [State.StatusOk, boot, State.initial]⟩

theorem witness_StepKeepsInvariant :
    (boot [0x40, 0xFF, 0xFF]).Inv ∧ ∃ t, step (boot [0x40, 0xFF, 0xFF]) = .next t :=
  ⟨witness_invariant _ (by decide), _, rfl⟩

theorem witness_ConstructGivesResetState :
    small.WF ∧ (∃ s, construct small [0x00] = some s) ∧
    (∃ s, construct small (List.replicate 65536 0) = some s) := by
  refine ⟨small_wf, ⟨boot [0x00], ?_⟩, ⟨longest, ?_⟩⟩
  · rw [construct, if_pos small_wf]
    rfl
  · have h : romRefusal (List.replicate 65536 (0 : Byte)) = none :=
      (State.romRefusal_none longest).mpr longest_rom_ok
    rw [construct, if_pos small_wf, h]
    rfl

/-- A fault of each kind that a step can deliver. -/
theorem witness_FaultChangesOnlyHalt :
    (after (boot [0x03])).map (·.status) = some (some .invalidInstruction) ∧
    (after (boot [0x12])).map (·.status) = some (some .endOfRom) ∧
    (after (boot [0x50])).map (·.status) = some (some .stackOutOfBounds) ∧
    (after (boot [0x23, 1, 2, 3])).map (·.status) = some (some .divideByZero) := by decide

theorem witness_RunKeepsRomAndConfig :
    construct small [0x13, 0, 0, 7, 0x02] = some (boot [0x13, 0, 0, 7, 0x02]) ∧
    ∃ t, Sys2Proof.core.run 2 (boot [0x13, 0, 0, 7, 0x02]) = .next t := by
  refine ⟨?_, _, rfl⟩
  rw [construct, if_pos small_wf]
  rfl

theorem witness_MemoryOutOfBoundsNeverDelivered :
    ∃ t, step (boot [0x13, 0xFF, 0xFF, 1]) = .next t := ⟨_, rfl⟩

theorem witness_StepReadsFiveRomBytes :
    let s := boot [0x41, 1, 2, 0, 9, 0x00]
    let rom : List Byte := [0x41, 1, 2, 0, 9, 0xFF]
    rom.length = s.rom.length ∧ (∀ k, k < 5 → rom[s.pc.toNat + k]? = s.rom[s.pc.toNat + k]?) ∧
    ∃ t, step s = .next t :=
  ⟨rfl, by decide, _, rfl⟩

theorem witness_HaltIsSetOnlyByHltOrFault : ∃ t, step (boot [0x02]) = .next t := ⟨_, rfl⟩

theorem witness_IgnoringChangesOnlyAtSentinels :
    (∃ t, step (boot [0xFE]) = .next t ∧ (boot [0xFE]).ignoring = false) ∧
    (∃ t, step { boot [0xFF] with ignoring := true } = .next t) :=
  ⟨⟨_, rfl, rfl⟩, ⟨_, rfl⟩⟩

theorem witness_StatusHasItsCause :
    (boot [0x01]).cfg.WF ∧ ∃ t, step (boot [0x01]) = .next t := ⟨small_wf, _, rfl⟩

theorem witness_InstructionFrame :
    let s := (boot [0x00]).withMem ⟨[(0xFFFF, 7)]⟩
    s.cfg.WF ∧ s.mem.wf = true ∧ ∃ t, exec (.smb 0xFFFF 0) s = .next t :=
  ⟨small_wf, by decide, _, rfl⟩

theorem witness_OnlyCallsAndReturnsMoveStack :
    ((boot [0x00]).cfg.WF ∧ ∃ t, exec (.psh 0) (boot [0x00]) = .next t ∧
      ¬ StackKept (boot [0x00]) t) ∧
    (∃ t, exec .pop (pair [0x00] 0 0) = .next t ∧ ¬ StackKept (pair [0x00] 0 0) t) :=
  ⟨⟨small_wf, _, rfl, by simp [StackKept]⟩, ⟨_, rfl, by simp [StackKept, pair]⟩⟩

theorem witness_StoresResult : small.WF ∧ ((boot [0x00]).withMem ⟨[(0, 1), (0xFFFF, 7)]⟩).mem.wf = true :=
  ⟨small_wf, by decide⟩

theorem witness_LoadAfterStoreReadsStoredByte :
    let s := withX (boot [0x00]) [(0, 0xC3)]
    s.mem.wf = true ∧ ∃ t u, exec (.smr 0xFFFF 0) s = .next t ∧ exec (.srm 0 0xFFFF) t = .next u :=
  ⟨rfl, _, _, rfl, rfl⟩

theorem witness_DivisionResult :
    small.WF ∧ ((cmp 255 1).reg 2).toNat ≠ 0 ∧ ((cmp 255 255).reg 2).toNat ≠ 0 := by decide

theorem witness_ZeroDivisorFaults :
    (cmp 5 0).cfg.divZero = .fault ∧ ((cmp 5 0).reg 2).toNat = 0 := by decide

theorem witness_ZeroDivisorValuePolicy :
    (State.initial strict [0x00]).cfg.divZero = .value ∧
    ((State.initial strict [0x00]).reg 2).toNat = 0 := by decide

theorem witness_ShiftResult :
    small.WF ∧
    (8 ≤ ((cmp 1 8).reg 2).toNat ∧ ∃ t, exec (.bsl 1 2 3) (cmp 1 8) = .next t) ∧
    (8 ≤ ((cmp 1 255).reg 2).toNat ∧ ∃ t, exec (.bsr 1 2 3) (cmp 1 255) = .next t) :=
  ⟨small_wf, ⟨by decide, _, rfl⟩, ⟨by decide, _, rfl⟩⟩

theorem witness_ArithmeticIdentities : (1 : Byte).toNat ≠ 0 ∧ (255 : Byte).toNat ≠ 0 := by decide

/-- Room for one entry, and an empty stack. -/
theorem witness_UnconditionalCallResult :
    let s := { boot [0x00] with sp := 3 }
    (s.cfg.WF ∧ s.StackOk ∧ s.sp + 1 = s.cfg.stackCap) ∧
    ((boot [0x00]).StackOk ∧ (boot [0x00]).sp = 0) :=
  ⟨⟨small_wf, ⟨rfl, by decide⟩, rfl⟩, ⟨rfl, by decide⟩, rfl⟩

/-- What a taken conditional call, or return, asks of a state whose registers 1 and 2 are compared. -/
def TakenCallOk (rel : Nat → Nat → Prop) (s : State) : Prop :=
  s.cfg.WF ∧ s.StackOk ∧ rel (s.reg 1).toNat (s.reg 2).toNat ∧ s.sp < s.cfg.stackCap

theorem takenCallOk (rel : Nat → Nat → Prop) (x1 x2 : Byte)
    (h : rel ((cmp x1 x2).reg 1).toNat ((cmp x1 x2).reg 2).toNat) : TakenCallOk rel (cmp x1 x2) :=
  ⟨small_wf, ⟨rfl, Nat.zero_le _⟩, h, show 0 < small.stackCap by decide⟩

/-- For each relation, a state in which it holds and the call has room, and one in which it fails. -/
theorem witness_ConditionalCallsResult :
    (TakenCallOk (· = ·) (cmp 5 5) ∧ ¬ ((cmp 0 255).reg 1).toNat = ((cmp 0 255).reg 2).toNat) ∧
    (TakenCallOk (· ≠ ·) (cmp 0 255) ∧ ¬ ((cmp 5 5).reg 1).toNat ≠ ((cmp 5 5).reg 2).toNat) ∧
    (TakenCallOk (· > ·) (cmp 255 0) ∧ ¬ ((cmp 5 5).reg 1).toNat > ((cmp 5 5).reg 2).toNat) ∧
    (TakenCallOk (· < ·) (cmp 0 255) ∧ ¬ ((cmp 5 5).reg 1).toNat < ((cmp 5 5).reg 2).toNat) ∧
    (TakenCallOk (· ≥ ·) (cmp 5 5) ∧ ¬ ((cmp 0 255).reg 1).toNat ≥ ((cmp 0 255).reg 2).toNat) ∧
    (TakenCallOk (· ≤ ·) (cmp 5 5) ∧ ¬ ((cmp 255 0).reg 1).toNat ≤ ((cmp 255 0).reg 2).toNat) :=
  ⟨⟨takenCallOk _ _ _ (by decide), by decide⟩, ⟨takenCallOk _ _ _ (by decide), by decide⟩,
    ⟨takenCallOk _ _ _ (by decide), by decide⟩, ⟨takenCallOk _ _ _ (by decide), by decide⟩,
    ⟨takenCallOk _ _ _ (by decide), by decide⟩, ⟨takenCallOk _ _ _ (by decide), by decide⟩⟩

/-- A full stack, and each relation. -/
theorem witness_FullStackCallFaults :
    let full := fun x1 x2 => { cmp x1 x2 with stack := [1, 2, 3, 4], sp := 4 }
    (∀ x1 x2, (full x1 x2).cfg.WF ∧ (full x1 x2).sp = (full x1 x2).cfg.stackCap) ∧
    ((full 5 5).reg 1).toNat = ((full 5 5).reg 2).toNat ∧
    ((full 0 255).reg 1).toNat ≠ ((full 0 255).reg 2).toNat ∧
    ((full 255 0).reg 1).toNat > ((full 255 0).reg 2).toNat ∧
    ((full 0 255).reg 1).toNat < ((full 0 255).reg 2).toNat ∧
    ((full 5 5).reg 1).toNat ≥ ((full 5 5).reg 2).toNat ∧
    ((full 5 5).reg 1).toNat ≤ ((full 5 5).reg 2).toNat :=
  ⟨fun _ _ => ⟨small_wf, rfl⟩, by decide⟩

theorem witness_UnconditionalJumpResult : (boot [0x00]).cfg.WF := small_wf

/-! The decode clauses of the following ask for a map that meets R53. -/

theorem witness_ControlInstructionsResult : small.WF := small_wf

theorem witness_LoadFromMemoryResult : small.WF := small_wf

theorem witness_SetRegisterResult : small.WF := small_wf

theorem witness_CopyRegisterResult : small.WF := small_wf

theorem witness_WrappingArithmeticResult : small.WF := small_wf

theorem witness_BitwiseResult : small.WF := small_wf

theorem witness_ComplementResult : small.WF := small_wf

/-- The configuration of every such state implements the six jumps, and each relation holds of one of
them and fails of another. -/
theorem witness_ConditionalJumpsResult :
    (∀ x1 x2, (cmp x1 x2).cfg.WF ∧ ∀ op, Implemented (cmp x1 x2).cfg op) ∧
    (((cmp 5 5).reg 1).toNat = ((cmp 5 5).reg 2).toNat ∧
      ¬ ((cmp 0 255).reg 1).toNat = ((cmp 0 255).reg 2).toNat) ∧
    (((cmp 0 255).reg 1).toNat ≠ ((cmp 0 255).reg 2).toNat ∧
      ¬ ((cmp 5 5).reg 1).toNat ≠ ((cmp 5 5).reg 2).toNat) ∧
    (((cmp 255 0).reg 1).toNat > ((cmp 255 0).reg 2).toNat ∧
      ¬ ((cmp 5 5).reg 1).toNat > ((cmp 5 5).reg 2).toNat) ∧
    (((cmp 0 255).reg 1).toNat < ((cmp 0 255).reg 2).toNat ∧
      ¬ ((cmp 5 5).reg 1).toNat < ((cmp 5 5).reg 2).toNat) ∧
    (((cmp 5 5).reg 1).toNat ≥ ((cmp 5 5).reg 2).toNat ∧
      ¬ ((cmp 0 255).reg 1).toNat ≥ ((cmp 0 255).reg 2).toNat) ∧
    (((cmp 5 5).reg 1).toNat ≤ ((cmp 5 5).reg 2).toNat ∧
      ¬ ((cmp 255 0).reg 1).toNat ≤ ((cmp 255 0).reg 2).toNat) :=
  ⟨fun _ _ => ⟨small_wf, fun _ => ⟨fun _ => rfl, fun _ => rfl⟩⟩, by decide⟩

theorem witness_RejectedOpcodesFault :
    (State.initial strict [0x4E]).cfg.jle = .rejected ∧
    (State.initial strict [0x51]).cfg.condReturn = .rejected ∧
    Instr.ple 1 2 ∈ [Instr.peq 1 2, .pnq 1 2, .pgt 1 2, .plt 1 2, .pge 1 2, .ple 1 2] := by decide

/-- One entry on the stack (`pair`), and a full stack; the relations on the first. -/
theorem witness_ReturnsResult :
    (small.WF ∧ ∀ op, Implemented small op) ∧
    (∀ x1 x2, (pair [0x51, 1, 2] x1 x2).cfg.condReturn = .implemented ∧
      (pair [0x51, 1, 2] x1 x2).sp ≠ 0 ∧
      (pair [0x51, 1, 2] x1 x2).stack[(pair [0x51, 1, 2] x1 x2).sp - 1]? = some 0x0004) ∧
    (let s := { boot [0x50] with stack := [1, 2, 3, 0xFFFF], sp := 4 }
     s.sp ≠ 0 ∧ s.stack[s.sp - 1]? = some 0xFFFF) ∧
    (((pair [0x51, 1, 2] 5 5).reg 1).toNat = ((pair [0x51, 1, 2] 5 5).reg 2).toNat ∧
      ¬ ((pair [0x51, 1, 2] 0 255).reg 1).toNat = ((pair [0x51, 1, 2] 0 255).reg 2).toNat) ∧
    (((pair [0x51, 1, 2] 0 255).reg 1).toNat ≠ ((pair [0x51, 1, 2] 0 255).reg 2).toNat ∧
      ¬ ((pair [0x51, 1, 2] 5 5).reg 1).toNat ≠ ((pair [0x51, 1, 2] 5 5).reg 2).toNat) ∧
    (((pair [0x51, 1, 2] 255 0).reg 1).toNat > ((pair [0x51, 1, 2] 255 0).reg 2).toNat ∧
      ¬ ((pair [0x51, 1, 2] 5 5).reg 1).toNat > ((pair [0x51, 1, 2] 5 5).reg 2).toNat) ∧
    (((pair [0x51, 1, 2] 0 255).reg 1).toNat < ((pair [0x51, 1, 2] 0 255).reg 2).toNat ∧
      ¬ ((pair [0x51, 1, 2] 5 5).reg 1).toNat < ((pair [0x51, 1, 2] 5 5).reg 2).toNat) ∧
    (((pair [0x51, 1, 2] 5 5).reg 1).toNat ≥ ((pair [0x51, 1, 2] 5 5).reg 2).toNat ∧
      ¬ ((pair [0x51, 1, 2] 0 255).reg 1).toNat ≥ ((pair [0x51, 1, 2] 0 255).reg 2).toNat) ∧
    (((pair [0x51, 1, 2] 5 5).reg 1).toNat ≤ ((pair [0x51, 1, 2] 5 5).reg 2).toNat ∧
      ¬ ((pair [0x51, 1, 2] 255 0).reg 1).toNat ≤ ((pair [0x51, 1, 2] 255 0).reg 2).toNat) :=
  ⟨⟨small_wf, fun _ => ⟨fun _ => rfl, fun _ => rfl⟩⟩, fun _ _ => ⟨rfl, Nat.one_ne_zero, rfl⟩,
    ⟨four_ne_zero, rfl⟩, by decide⟩

theorem witness_EmptyStackReturnFaults :
    (∀ x1 x2, (cmp x1 x2).cfg.condReturn = .implemented ∧ (cmp x1 x2).sp = 0) ∧
    ((cmp 5 5).reg 1).toNat = ((cmp 5 5).reg 2).toNat ∧
    ((cmp 0 255).reg 1).toNat ≠ ((cmp 0 255).reg 2).toNat ∧
    ((cmp 255 0).reg 1).toNat > ((cmp 255 0).reg 2).toNat ∧
    ((cmp 0 255).reg 1).toNat < ((cmp 0 255).reg 2).toNat ∧
    ((cmp 5 5).reg 1).toNat ≥ ((cmp 5 5).reg 2).toNat ∧
    ((cmp 5 5).reg 1).toNat ≤ ((cmp 5 5).reg 2).toNat :=
  ⟨fun _ _ => ⟨rfl, rfl⟩, by decide⟩

/-- A call whose last byte is the last of the longest ROM, and one at offset 0. -/
theorem witness_CallThenReturnResumes :
    (let s := { boot [0x00] with pc := 0xFFFD, sp := 3 }
     s.StackOk ∧ (Instr.psh 7).opcode ∈ Opcode.calls ∧
       s.pc.toNat + (Instr.psh 7).opcode.length = 65536 ∧
       ∃ t, exec (.psh 7) s = .next t ∧ t.sp = s.sp + 1) ∧
    ((cmp 5 5).StackOk ∧ (Instr.teq 1 2 7).opcode ∈ Opcode.calls ∧
      ∃ t, exec (.teq 1 2 7) (cmp 5 5) = .next t ∧ t.sp = (cmp 5 5).sp + 1) :=
  ⟨⟨⟨rfl, by decide⟩, by decide, by decide, _, rfl, rfl⟩,
    ⟨⟨rfl, by simp [cmp, withX, boot, State.initial]⟩, by decide, _, rfl, rfl⟩⟩

theorem witness_SentinelsResult :
    small.WF ∧ ({ boot [0xFF] with ignoring := true } : State).ignoring = true ∧
    (boot [0xFF]).ignoring = false := ⟨small_wf, rfl, rfl⟩

/-- An empty region, and one whose bytes would halt or fault if they were dispatched. -/
theorem witness_DataRegionIsSkipped :
    ∀ data ∈ [[], [0x02#8, 0x03, 0xFE]],
      let s := { boot (data ++ [0xFF, 0x00]) with ignoring := true }
      s.RomOk ∧ s.halt = false ∧ s.ignoring = true ∧
      s.rom.drop s.pc.toNat = data ++ s.cfg.opcodes.opUnignore :: [0x00] ∧
      s.cfg.opcodes.opUnignore ∉ data := by
  intro data hd
  simp only [List.mem_cons, List.not_mem_nil, or_false] at hd
  rcases hd with rfl | rfl
  · exact ⟨⟨by decide, by decide⟩, rfl, rfl, rfl, by decide⟩
  · exact ⟨⟨by decide, by decide⟩, rfl, rfl, rfl, by decide⟩

theorem witness_FrameRepeatsStep :
    (∃ t, FrameReturns (boot [0x00, 0x01]) t ∧ t.status = some .nextFrame) ∧
    (((boot [0x00]).withHalt true).RomOk ∧ ((boot [0x00]).withHalt true).halt = true) :=
  ⟨⟨_, ⟨2, rfl⟩, rfl⟩, ⟨by decide, by decide⟩, rfl⟩

theorem witness_JumpToItselfHangsFrame :
    let s := boot [0x48, 0x00, 0x00]
    s.cfg.WF ∧ s.RomOk ∧ Dispatches s (.jmp 0) ∧ (0 : Addr).toNat = s.pc.toNat :=
  ⟨small_wf, ⟨by decide, by decide⟩, ⟨rfl, rfl, [], by decide⟩, rfl⟩

end Sys2Proof.Tests
end

section
/-! The masking of register operand bytes (10_state.md R12): first the two accessors `State.reg` and
`State.setReg`, then the shared routine of each instruction family, then `exec`. -/

namespace Sys2Proof.Machine

open Sys2Proof.Claims

/-! ### The accessors -/

/-- Clearing bits 7 to 3 of an operand byte selects the same register: the mask is idempotent. -/
@[simp] theorem regIndex_and_seven (b : Byte) : regIndex (b &&& 7#8) = regIndex b := by
  simp [regIndex, BitVec.and_assoc]

@[simp] theorem State.reg_and_seven (s : State) (b : Byte) : s.reg (b &&& 7#8) = s.reg b := by
  simp [State.reg]

@[simp] theorem State.setReg_and_seven (s : State) (d v : Byte) :
    s.setReg (d &&& 7#8) v = s.setReg d v := by
  simp [State.setReg]

theorem State.reg_eq_getElem (s : State) (b : Byte) : s.reg b = s.regs[b.toNat % 8] := by
  simp only [State.reg, Vector.get_eq_getElem, regIndex_val]

theorem State.get_setReg_mod (s : State) (b v : Byte) (r : Fin 8) :
    (s.setReg b v).regs.get r = if r.val = b.toNat % 8 then v else s.regs.get r := by
  simp only [State.get_setReg, Fin.ext_iff, regIndex_val]

/-! ### The shared routines

An instruction reads and writes registers only through the accessors, so each routine gives the same
outcome for masked operand bytes. -/

@[simp] theorem threeReg_and_seven (op : Opcode) (f : Byte → Byte → Byte) (a b d : Byte) (s : State) :
    threeReg op f (a &&& 7#8) (b &&& 7#8) (d &&& 7#8) s = threeReg op f a b d s := by
  simp [threeReg_eq]

@[simp] theorem threeRegMayRaise_and_seven (op : Opcode) (f : Byte → Byte → Except Status Byte)
    (a b d : Byte) (s : State) :
    threeRegMayRaise op f (a &&& 7#8) (b &&& 7#8) (d &&& 7#8) s = threeRegMayRaise op f a b d s := by
  simp [threeRegMayRaise]

@[simp] theorem transferIf_and_seven (op : Opcode) (cc : Cond) (a b : Byte) (target : Addr)
    (s : State) :
    transferIf op cc (a &&& 7#8) (b &&& 7#8) target s = transferIf op cc a b target s := by
  simp [transferIf]

@[simp] theorem returnIf_and_seven (op : Opcode) (cc : Cond) (a b : Byte) (s : State) :
    returnIf op cc (a &&& 7#8) (b &&& 7#8) s = returnIf op cc a b s := by
  simp [returnIf_eq]

/-! ### The dispatch -/

/-- No instruction sees bits 7 to 3 of a register operand byte: the case split follows the families,
each with the rule of its routine. -/
theorem exec_withMaskedRegisters (i : Instr) (s : State) :
    exec (withMaskedRegisters i) s = exec i s := by
  cases i with
  | nop | nxt | hlt | smb | psh | jmp | pop | opIgnore | opUnignore => rfl
  | smr addr r => simp [withMaskedRegisters, exec, execSmr]
  | srm d addr => simp [withMaskedRegisters, exec, execSrm]
  | srb d imm => simp [withMaskedRegisters, exec, execSrb]
  | srr d r => simp [withMaskedRegisters, exec, execSrr]
  | not r d => simp [withMaskedRegisters, exec, execNot]
  | add a b d | sub a b d | mul a b d | xor a b d | and a b d | orr a b d | xnr a b d
  | nan a b d | nor a b d | bsl a b d | bsr a b d => exact threeReg_and_seven _ _ a b d s
  | div a b d | mod a b d => exact threeRegMayRaise_and_seven _ _ a b d s
  | teq a b target | tnq a b target | tgt a b target | tlt a b target | tge a b target
  | tle a b target | jeq a b target | jnq a b target | jgt a b target | jlt a b target
  | jge a b target => exact transferIf_and_seven _ _ a b target s
  | jle a b target => simp [withMaskedRegisters, exec, execJle]
  | peq a b | pnq a b | pgt a b | plt a b | pge a b | ple a b =>
    exact returnIf_and_seven _ _ a b s

/-- Settles O26: the accessors mask, and every instruction goes through them. -/
theorem registerOperandIsMasked : Obligations.RegisterOperandIsMasked :=
  ⟨State.reg_eq_getElem, State.get_setReg_mod, fun i s => (exec_withMaskedRegisters i s).symm⟩

end Sys2Proof.Machine
end

section
/-! The ROM is fixed for the life of a machine instance (20_memory.md R42): first one instruction and
one step, then every run by induction on its length, then the machines that `construct` answers. -/

namespace Sys2Proof.Machine

open Sys2Proof.Claims

/-! ### One step -/

/-- However an instruction completes, its next state is made by updates none of which is `withRom`. -/
theorem exec_keeps_rom_cfg (i : Instr) (s t : State) (h : exec i s = .next t) :
    t.rom = s.rom ∧ t.cfg = s.cfg := by
  cases exec_cases i s t h with
  | fellThrough | nextFrame | halted | wroteRegister | wroteMemory | jumped | called | returned
  | ignore | unignore | faulted => simp

theorem step_keeps_rom_cfg (s t : State) (h : step s = .next t) :
    t.rom = s.rom ∧ t.cfg = s.cfg := by
  obtain ⟨-, hcase⟩ := step_cases s t h
  cases hcase with
  | halted | pastRom | scanned | invalid | truncated => simp
  | dispatched i _ _ hexec => exact exec_keeps_rom_cfg i s t hexec

/-! ### Every run -/

/-- What every step keeps, every run that completes keeps. -/
theorem run_keeps (P : State → Prop) (hstep : ∀ s t, step s = .next t → P s → P t) (n : Nat)
    (s t : State) (hrun : Sys2Proof.core.run n s = .next t) (hs : P s) : P t := by
  induction n generalizing s with
  | zero => cases hrun; exact hs
  | succ n ih =>
    obtain ⟨u, hsu, hut⟩ := exists_step_of_run_succ n s t hrun
    exact ih u hut (hstep s u hsu hs)

theorem run_keeps_rom_cfg (n : Nat) (s t : State) (h : Sys2Proof.core.run n s = .next t) :
    t.rom = s.rom ∧ t.cfg = s.cfg := by
  refine run_keeps (fun u => u.rom = s.rom ∧ u.cfg = s.cfg) ?_ n s t h ⟨rfl, rfl⟩
  intro u v huv ⟨hrom, hcfg⟩
  obtain ⟨hrom', hcfg'⟩ := step_keeps_rom_cfg u v huv
  exact ⟨hrom'.trans hrom, hcfg'.trans hcfg⟩

/-! ### Construction and fetch -/

/-- `construct` answers the initial state of a well-formed configuration and a ROM that is not refused,
and nothing else. -/
theorem construct_eq_some (cfg : Config) (rom : List Byte) (s : State) :
    construct cfg rom = some s ↔
      cfg.WF ∧ romRefusal rom = none ∧ s = State.initial cfg rom := by
  by_cases hwf : cfg.WF <;> cases hrom : romRefusal rom <;>
    simp [construct, hwf, hrom, eq_comm]

/-- A fetch after a run from a constructed machine reads the ROM that `construct` was given. -/
theorem fetchByte_of_construct_run (n : Nat) (cfg : Config) (rom : List Byte) (s t : State)
    (hs : construct cfg rom = some s) (hrun : Sys2Proof.core.run n s = .next t) :
    fetchByte t = rom[t.pc.toNat]? := by
  obtain ⟨-, -, rfl⟩ := (construct_eq_some cfg rom s).mp hs
  obtain ⟨hrom, -⟩ := run_keeps_rom_cfg n _ t hrun
  rw [fetchByte, hrom, State.rom_initial]

/-! Data memory is no part of what a fetch reads: the ROM, the cursor and the configuration. -/

@[simp] theorem fetchByte_withMem (s : State) (m : Memory) : fetchByte (s.withMem m) = fetchByte s := by
  simp [fetchByte]

@[simp] theorem fetchDecode_withMem (s : State) (m : Memory) :
    fetchDecode (s.withMem m) = fetchDecode s := by
  simp [fetchDecode]

/-- Settles O18: no step touches the ROM or the configuration, so no run does, and a fetch reads
nothing that a run or data memory changes but the cursor. -/
theorem runKeepsRomAndConfig : Obligations.RunKeepsRomAndConfig :=
  ⟨run_keeps_rom_cfg, fetchByte_of_construct_run,
    fun s m => ⟨fetchByte_withMem s m, fetchDecode_withMem s m⟩⟩

end Sys2Proof.Machine
end

section
/-! What the status of a step says about the state it leaves (40_step_dispatch.md R77), and from it that
a halted machine stays halted (R71). -/

namespace Sys2Proof.Machine

/-! ### The status of a step -/

/-- The ways a step from `s` to `t` can deliver its status. -/
inductive Delivery (s t : State) : Prop
  /-- `CONTINUE`: the machine runs on -/
  | goesOn (hstatus : t.status = some .continue_) (hhalt : t.halt = false)
  /-- `NEXT_FRAME`: the step was a `nxt` -/
  | endsFrame (hd : Dispatches s .nxt) (ht : t = (s.advance 1).deliver .nextFrame)
  /-- a terminal status: the machine is halted -/
  | stops (st : Status)
      (hst : st ∈ [.halted, .invalidInstruction, .endOfRom, .stackOutOfBounds, .divideByZero])
      (hstatus : t.status = some st) (hhalt : t.halt = true)

/-- A machine that dispatches an instruction runs. -/
theorem Dispatches.halt_eq_false {s : State} {i : Instr} (h : Dispatches s i) : s.halt = false := by
  obtain ⟨hhalt, -⟩ := h
  exact hhalt

theorem exec_delivery (i : Instr) (s t : State) (hd : Dispatches s i) (h : exec i s = .next t) :
    Delivery s t := by
  have hhalt := hd.halt_eq_false
  cases exec_cases i s t h with
  | fellThrough | wroteRegister | wroteMemory | jumped | called | returned | ignore | unignore =>
    exact .goesOn (by simp) (by simp [hhalt])
  | nextFrame hi => exact .endsFrame (hi ▸ hd) rfl
  | halted => exact .stops .halted (by simp) (by simp) (by simp)
  | faulted st hst => exact .stops st (by rcases hst with rfl | rfl | rfl <;> simp) (by simp) (by simp)

theorem step_delivery (s t : State) (h : step s = .next t) : Delivery s t := by
  obtain ⟨-, hcase⟩ := step_cases s t h
  cases hcase with
  | halted hhalt => exact .stops .halted (by simp) (by simp) (by simp [hhalt])
  | pastRom | truncated => exact .stops .endOfRom (by simp) (by simp) (by simp)
  | invalid => exact .stops .invalidInstruction (by simp) (by simp) (by simp)
  | scanned b hhalt => exact .goesOn (by simp) (by simp [hhalt])
  | dispatched i _ hd hexec => exact exec_delivery i s t hd hexec

/-- A status other than `CONTINUE` and `NEXT_FRAME` is delivered only with `HALT` set. -/
theorem halt_of_step_terminal (s t : State) (st : Status) (h : step s = .next t)
    (hst : t.status = some st) (hc : st ≠ .continue_) (hn : st ≠ .nextFrame) : t.halt = true := by
  cases step_delivery s t h with
  | goesOn hstatus => exact absurd (Option.some.inj (hst.symm.trans hstatus)) hc
  | endsFrame _ ht => subst ht; exact absurd (Option.some.inj hst).symm hn
  | stops _ _ _ hhalt => exact hhalt

/-! ### A halted machine -/

theorem step_of_halt (s : State) (hrom : s.RomOk) (hhalt : s.halt = true) :
    step s = .next (s.deliver .halted) := by
  rw [step_eq s hrom, if_pos hhalt]

/-- The state after one step of a halted machine is a fixed point of the next steps. -/
theorem run_of_halt (n : Nat) (s : State) (hrom : s.RomOk) (hhalt : s.halt = true) :
    Sys2Proof.core.run (n + 1) s = .next (s.deliver .halted) := by
  induction n generalizing s with
  | zero => exact run_succ_of_step 0 s _ (step_of_halt s hrom hhalt)
  | succ n ih =>
    exact (run_succ_of_step (n + 1) s _ (step_of_halt s hrom hhalt)).trans
      (ih (s.deliver .halted) hrom hhalt)

/-- A step leaves a machine that can exist: it began with one, and keeps the ROM. -/
theorem romOk_of_step (s t : State) (h : step s = .next t) : t.RomOk := by
  obtain ⟨hrom, -⟩ := step_keeps_rom_cfg s t h
  obtain ⟨hs, -⟩ := step_cases s t h
  simpa only [State.RomOk, hrom] using hs

/-- Settles O8: a terminal status comes with `HALT` set, and a halted machine only delivers `HALTED`
again. -/
theorem haltedMachineStaysHalted : Obligations.HaltedMachineStaysHalted := by
  refine ⟨step_of_halt, fun s t st n h hst hc hn => ?_⟩
  exact run_of_halt n t (romOk_of_step s t h) (halt_of_step_terminal s t st h hst hc hn)

end Sys2Proof.Machine
end

section
/-! The `frame` transaction (40_step_dispatch.md R79) is the shortest run that does not end with
`CONTINUE`. `EndsFrameAfter` names that run; it and `frame` have the same recursion over the first step,
and its last step says what status the frame returns. -/

namespace Sys2Proof.Machine

/-! ### Runs, by their last step -/

/-- A run that completes is a shorter run and a last step. -/
theorem exists_last_step_of_run_succ (n : Nat) (s t : State)
    (h : Sys2Proof.core.run (n + 1) s = .next t) :
    ∃ u : State, Sys2Proof.core.run n s = .next u ∧ step u = .next t := by
  induction n generalizing s with
  | zero =>
    obtain ⟨u, hsu, hut⟩ := exists_step_of_run_succ 0 s t h
    cases hut
    exact ⟨s, rfl, hsu⟩
  | succ n ih =>
    obtain ⟨v, hsv, hvt⟩ := exists_step_of_run_succ (n + 1) s t h
    obtain ⟨u, hvu, hut⟩ := ih v hvt
    exact ⟨u, (run_succ_of_step n s v hsv).trans hvu, hut⟩

/-! ### The run of a frame -/

/-- The run of `n + 1` steps from `s` ends in `t` with a status other than `CONTINUE`, the first on
its way. -/
def EndsFrameAfter (n : Nat) (s t : State) : Prop :=
  Sys2Proof.core.run (n + 1) s = .next t ∧ t.status ≠ some .continue_ ∧
    ∀ k u, 0 < k → k ≤ n → Sys2Proof.core.run k s = .next u → u.status = some .continue_

theorem endsFrameAfter_zero (s t : State) :
    EndsFrameAfter 0 s t ↔ step s = .next t ∧ t.status ≠ some .continue_ := by
  constructor
  · rintro ⟨hrun, hstatus, -⟩
    obtain ⟨u, hsu, hut⟩ := exists_step_of_run_succ 0 s t hrun
    cases hut
    exact ⟨hsu, hstatus⟩
  · rintro ⟨hstep, hstatus⟩
    exact ⟨run_succ_of_step 0 s t hstep, hstatus, fun k u hpos hle => by omega⟩

theorem endsFrameAfter_succ (n : Nat) (s t : State) :
    EndsFrameAfter (n + 1) s t ↔
      ∃ u, step s = .next u ∧ u.status = some .continue_ ∧ EndsFrameAfter n u t := by
  constructor
  · rintro ⟨hrun, hstatus, hshorter⟩
    obtain ⟨u, hsu, hut⟩ := exists_step_of_run_succ (n + 1) s t hrun
    refine ⟨u, hsu, ?_, hut, hstatus, fun k v hpos hle huv => ?_⟩
    · exact hshorter 1 u (by omega) (by omega) (run_succ_of_step 0 s u hsu)
    · exact hshorter (k + 1) v (by omega) (by omega) ((run_succ_of_step k s u hsu).trans huv)
  · rintro ⟨u, hsu, hu, hut, hstatus, hshorter⟩
    refine ⟨(run_succ_of_step (n + 1) s u hsu).trans hut, hstatus, fun k v hpos hle hsv => ?_⟩
    obtain ⟨j, rfl⟩ := Nat.exists_eq_add_one.mpr hpos
    have huv : Sys2Proof.core.run j u = .next v := (run_succ_of_step j s u hsu).symm.trans hsv
    cases j with
    | zero => cases huv; exact hu
    | succ j => exact hshorter (j + 1) v (by omega) (by omega) huv

/-- No run that ends a frame has a shorter one: it would have stopped there. -/
theorem EndsFrameAfter.le {n m : Nat} {s t u : State} (ht : EndsFrameAfter n s t)
    (hu : EndsFrameAfter m s u) : m ≤ n := by
  obtain ⟨hrun, hstatus, -⟩ := ht
  obtain ⟨-, -, hshorter⟩ := hu
  by_contra hlt
  exact hstatus (hshorter (n + 1) t (by omega) (by omega) hrun)

theorem EndsFrameAfter.unique {n m : Nat} {s t u : State} (ht : EndsFrameAfter n s t)
    (hu : EndsFrameAfter m s u) : t = u := by
  obtain rfl : n = m := le_antisymm (hu.le ht) (ht.le hu)
  obtain ⟨hrun, -⟩ := ht
  obtain ⟨hrun', -⟩ := hu
  exact Host.Outcome.next.inj (hrun.symm.trans hrun')

/-- The status that ends a frame is delivered by the last step of its run. -/
theorem EndsFrameAfter.exists_last_step {n : Nat} {s t : State} (h : EndsFrameAfter n s t) :
    ∃ u : State, Sys2Proof.core.run n s = .next u ∧ step u = .next t := by
  obtain ⟨hrun, -⟩ := h
  exact exists_last_step_of_run_succ n s t hrun

/-! ### The transaction -/

/-- A frame ends with its first step, or goes on from there after a `CONTINUE`. -/
theorem frame_succ_eq_next (n : Nat) (s t : State) :
    frame (n + 1) s = some (.next t) ↔
      (step s = .next t ∧ t.status ≠ some .continue_) ∨
      ∃ u, step s = .next u ∧ u.status = some .continue_ ∧ frame n u = some (.next t) := by
  cases h : step s with
  | next u =>
    rw [frame_succ_of_step n s u h]
    by_cases hu : u.status = some .continue_
    · rw [if_pos hu]
      constructor
      · exact fun hut => .inr ⟨u, rfl, hu, hut⟩
      · rintro (⟨⟨⟩, ht⟩ | ⟨_, ⟨⟩, -, hut⟩)
        · exact absurd hu ht
        · exact hut
    · rw [if_neg hu]
      constructor
      · rintro ⟨⟩
        exact .inl ⟨rfl, hu⟩
      · rintro (⟨⟨⟩, -⟩ | ⟨_, ⟨⟩, hc, -⟩)
        · rfl
        · exact absurd hc hu
  | fault r => simp [frame, h]
  | refused r => simp [frame, h]

/-- With a bound of `n` steps, `frame` returns what a run of at most `n` steps ends with. -/
theorem frame_eq_next (n : Nat) (s t : State) :
    frame n s = some (.next t) ↔ ∃ m < n, EndsFrameAfter m s t := by
  induction n generalizing s with
  | zero => simp [frame]
  | succ n ih =>
    simp only [frame_succ_eq_next, ih, Nat.exists_lt_succ_left, endsFrameAfter_zero,
      endsFrameAfter_succ]
    exact or_congr_right ⟨fun ⟨u, hsu, hc, m, hm, hut⟩ => ⟨m, hm, u, hsu, hc, hut⟩,
      fun ⟨m, hm, u, hsu, hc, hut⟩ => ⟨u, hsu, hc, m, hm, hut⟩⟩

theorem frameReturns_iff (s t : State) : FrameReturns s t ↔ ∃ n, EndsFrameAfter n s t := by
  simp only [FrameReturns, frame_eq_next]
  exact ⟨fun ⟨_, n, _, h⟩ => ⟨n, h⟩, fun ⟨n, h⟩ => ⟨n + 1, n, n.lt_succ_self, h⟩⟩

theorem FrameReturns.unique {s t u : State} (ht : FrameReturns s t) (hu : FrameReturns s u) :
    t = u := by
  obtain ⟨_, ht⟩ := (frameReturns_iff s t).mp ht
  obtain ⟨_, hu⟩ := (frameReturns_iff s u).mp hu
  exact ht.unique hu

theorem FrameReturns.status_mem {s t : State} (h : FrameReturns s t) :
    ∃ st ∈ [Status.nextFrame, .halted, .invalidInstruction, .endOfRom, .stackOutOfBounds,
      .divideByZero], t.status = some st := by
  obtain ⟨n, hn⟩ := (frameReturns_iff s t).mp h
  obtain ⟨u, -, hut⟩ := hn.exists_last_step
  obtain ⟨-, hstatus, -⟩ := hn
  cases step_delivery u t hut with
  | goesOn hc => exact absurd hc hstatus
  | endsFrame _ ht => exact ⟨.nextFrame, List.mem_cons_self, ht ▸ rfl⟩
  | stops st hst hs => exact ⟨st, List.mem_cons_of_mem _ hst, hs⟩

/-- A frame that returns `NEXT_FRAME` ended with a `nxt`. -/
theorem FrameReturns.exists_nxt {s t : State} (h : FrameReturns s t)
    (hnf : t.status = some .nextFrame) : t.halt = false ∧
      ∃ n u, Sys2Proof.core.run n s = .next u ∧ Dispatches u .nxt ∧ t.pc = u.pc + 1 ∧
        step u = .next t := by
  obtain ⟨n, hn⟩ := (frameReturns_iff s t).mp h
  obtain ⟨u, hsu, hut⟩ := hn.exists_last_step
  cases step_delivery u t hut with
  | goesOn hc => simp [hnf] at hc
  | endsFrame hd ht =>
    exact ⟨by simp [ht, hd.halt_eq_false], n, u, hsu, hd, by simp [ht], hut⟩
  | stops st hst hs =>
    rw [hnf] at hs
    cases hs
    simp at hst

theorem frame_of_halt (s : State) (hrom : s.RomOk) (hhalt : s.halt = true) :
    frame 1 s = some (.next (s.deliver .halted)) := by
  simp [frame_succ_of_step 0 s _ (step_of_halt s hrom hhalt)]

/-- Settles O53: a frame is the shortest run that does not end with `CONTINUE`, and its last step
decides what it returns. -/
theorem frameRepeatsStep : Obligations.FrameRepeatsStep :=
  ⟨frameReturns_iff, fun _ _ _ => FrameReturns.unique, fun _ _ => FrameReturns.status_mem,
    frame_of_halt, fun _ _ => FrameReturns.exists_nxt⟩

end Sys2Proof.Machine
end

section
/-! The three-register arithmetic and bitwise instructions (43_arith_bitwise.md R105 to R108, R111 to
R116). They share their format and the routine `threeReg`, so one lemma gives the encoding and the frame
of all of them; what is left of each is the value of its function, `aluAdd` to `aluNor`, in unsigned
arithmetic. -/

namespace Sys2Proof.Machine

open Sys2Proof.Claims

/-! ### Format `RRR` -/

/-- The configuration decides about `jle` and the conditional returns, and none of them has this
format. -/
theorem rejects_of_format_rrr (cfg : Config) (op : Opcode) (h : op.format = .RRR) :
    cfg.rejects op = false := by
  cases op with
  | jle | peq | pnq | pgt | plt | pge | ple => cases h
  | _ => rfl

theorem decode_rrr (mk : Byte → Byte → Byte → Instr) (op : Opcode) (hformat : op.format = .RRR)
    (hread : decodeOperands op = readRRR mk) (cfg : Config) (a b d : Byte) (rest : List Byte)
    (hwf : cfg.WF) :
    decode cfg (cfg.opcodes.code op :: a :: b :: d :: rest) = .instr (mk a b d) rest := by
  obtain ⟨hdistinct, -⟩ := hwf
  rw [decode_code cfg hdistinct op _ (rejects_of_format_rrr cfg op hformat), hread, readRRR]

/-! ### The written register and its frame -/

/-- A register write followed by the retirement of its instruction changes the register, the cursor and
the status only. -/
theorem writesRegister_setReg_retire (op : Opcode) (s : State) (d v : Byte) :
    WritesRegister op.length d v.toNat s ((s.setReg d v).retire op) := by
  refine ⟨by simp, fun r hr => by simp [hr], fun a => by simp, ?_, ?_, ?_⟩
  · simp [StackKept]
  · simp [FlagsRomKept]
  · simp [AdvancedBy]

/-- An instruction of format `RRR` that runs `threeReg` has the result that its function of two bytes
has on unsigned values. -/
theorem threeRegisterResult_of_threeReg {mk : Byte → Byte → Byte → Instr} {op : Opcode}
    {g : Byte → Byte → Byte} {f : Nat → Nat → Nat} (hformat : op.format = .RRR)
    (hread : decodeOperands op = readRRR mk)
    (hexec : ∀ a b d s, exec (mk a b d) s = threeReg op g a b d s)
    (hvalue : ∀ va vb, (g va vb).toNat = f va.toNat vb.toNat) : ThreeRegisterResult mk op f := by
  refine ⟨decode_rrr mk op hformat hread, fun s a b d => ?_⟩
  refine ⟨_, (hexec a b d s).trans (threeReg_eq op g a b d s), ?_⟩
  have hlength : op.length = 4 := by rw [Opcode.length, hformat, Format.length]
  rw [← hvalue, ← hlength]
  exact writesRegister_setReg_retire op s d _

/-! ### The functions, on unsigned values -/

theorem aluAdd_toNat (va vb : Byte) : (aluAdd va vb).toNat = (va.toNat + vb.toNat) % 256 :=
  BitVec.toNat_add va vb

/-- The 256 that is added to the minuend keeps the difference of natural numbers from being cut off
at 0. -/
theorem aluSub_toNat (va vb : Byte) : (aluSub va vb).toNat = (va.toNat + 256 - vb.toNat) % 256 := by
  have hb := vb.isLt
  rw [aluSub, BitVec.toNat_sub]
  omega

theorem aluMul_toNat (va vb : Byte) : (aluMul va vb).toNat = (va.toNat * vb.toNat) % 256 :=
  BitVec.toNat_mul va vb

theorem aluXor_toNat (va vb : Byte) : (aluXor va vb).toNat = va.toNat ^^^ vb.toNat :=
  BitVec.toNat_xor va vb

theorem aluAnd_toNat (va vb : Byte) : (aluAnd va vb).toNat = va.toNat &&& vb.toNat :=
  BitVec.toNat_and va vb

theorem aluOrr_toNat (va vb : Byte) : (aluOrr va vb).toNat = va.toNat ||| vb.toNat :=
  BitVec.toNat_or va vb

theorem aluNot_toNat (v : Byte) : (aluNot v).toNat = 255 - v.toNat :=
  BitVec.toNat_not

/-! `xnr`, `nan` and `nor` are complements of the three functions above (R120(e)); `nan` that of the OR
and `nor` that of the AND (conflict C1). -/

theorem aluXnr_eq_aluNot (va vb : Byte) : aluXnr va vb = aluNot (aluXor va vb) := rfl

theorem aluNan_eq_aluNot (va vb : Byte) : aluNan va vb = aluNot (aluOrr va vb) := rfl

theorem aluNor_eq_aluNot (va vb : Byte) : aluNor va vb = aluNot (aluAnd va vb) := rfl

theorem aluXnr_toNat (va vb : Byte) : (aluXnr va vb).toNat = 255 - (va.toNat ^^^ vb.toNat) := by
  rw [aluXnr_eq_aluNot, aluNot_toNat, aluXor_toNat]

theorem aluNan_toNat (va vb : Byte) : (aluNan va vb).toNat = 255 - (va.toNat ||| vb.toNat) := by
  rw [aluNan_eq_aluNot, aluNot_toNat, aluOrr_toNat]

theorem aluNor_toNat (va vb : Byte) : (aluNor va vb).toNat = 255 - (va.toNat &&& vb.toNat) := by
  rw [aluNor_eq_aluNot, aluNot_toNat, aluAnd_toNat]

/-! ### The instructions -/

/-- Settles O33: the three instructions run `threeReg` with a function that is modulo 256 because a byte
is. -/
theorem wrappingArithmeticResult : Obligations.WrappingArithmeticResult :=
  ⟨threeRegisterResult_of_threeReg rfl rfl (fun _ _ _ _ => rfl) aluAdd_toNat,
    threeRegisterResult_of_threeReg rfl rfl (fun _ _ _ _ => rfl) aluSub_toNat,
    threeRegisterResult_of_threeReg rfl rfl (fun _ _ _ _ => rfl) aluMul_toNat⟩

/-- Settles O37: the six instructions run `threeReg`, three with a function of bits and three with the
complement of one. -/
theorem bitwiseResult : Obligations.BitwiseResult :=
  ⟨threeRegisterResult_of_threeReg rfl rfl (fun _ _ _ _ => rfl) aluXor_toNat,
    threeRegisterResult_of_threeReg rfl rfl (fun _ _ _ _ => rfl) aluAnd_toNat,
    threeRegisterResult_of_threeReg rfl rfl (fun _ _ _ _ => rfl) aluOrr_toNat,
    threeRegisterResult_of_threeReg rfl rfl (fun _ _ _ _ => rfl) aluXnr_toNat,
    threeRegisterResult_of_threeReg rfl rfl (fun _ _ _ _ => rfl) aluNan_toNat,
    threeRegisterResult_of_threeReg rfl rfl (fun _ _ _ _ => rfl) aluNor_toNat⟩

end Sys2Proof.Machine
end

section
/-! The condition predicates (44_call_branch.md R131) that calls, jumps and conditional returns share:
one lemma per condition turns the test that the machine runs into the relation on unsigned values. -/

namespace Sys2Proof.Machine

@[simp] theorem Cond.always_holds (va vb : Byte) : Cond.always.holds va vb = true := rfl

@[simp] theorem Cond.eq_holds_iff (va vb : Byte) :
    Cond.eq.holds va vb = true ↔ va.toNat = vb.toNat := decide_eq_true_iff

@[simp] theorem Cond.nq_holds_iff (va vb : Byte) :
    Cond.nq.holds va vb = true ↔ va.toNat ≠ vb.toNat := decide_eq_true_iff

@[simp] theorem Cond.gt_holds_iff (va vb : Byte) :
    Cond.gt.holds va vb = true ↔ va.toNat > vb.toNat := decide_eq_true_iff

@[simp] theorem Cond.lt_holds_iff (va vb : Byte) :
    Cond.lt.holds va vb = true ↔ va.toNat < vb.toNat := decide_eq_true_iff

@[simp] theorem Cond.ge_holds_iff (va vb : Byte) :
    Cond.ge.holds va vb = true ↔ va.toNat ≥ vb.toNat := decide_eq_true_iff

@[simp] theorem Cond.le_holds_iff (va vb : Byte) :
    Cond.le.holds va vb = true ↔ va.toNat ≤ vb.toNat := decide_eq_true_iff

/-- Settles O41, condition by condition. -/
theorem predicateTable : Obligations.PredicateTable := fun va vb =>
  ⟨Cond.always_holds va vb, Cond.eq_holds_iff va vb, Cond.nq_holds_iff va vb,
    Cond.gt_holds_iff va vb, Cond.lt_holds_iff va vb, Cond.ge_holds_iff va vb,
    Cond.le_holds_iff va vb⟩

end Sys2Proof.Machine
end

section
/-! Decoding (30_encoding.md). An instruction's bytes are its opcode byte and its operand bytes, and
`decodeOperands` either reads the operand bytes of an instruction of the opcode or runs out of
bytes: `OperandsCase` says so for all nine formats at once. When `decode` gives each of its three
answers follows from it. -/

namespace Sys2Proof

open Sys2Proof.Claims

/-! ### Opcodes that a configuration executes -/

/-- An instruction is well-formed exactly if its opcode is not rejected. -/
theorem Config.rejects_opcode (cfg : Config) (i : Instr) :
    cfg.rejects i.opcode = !i.wellFormed cfg := by
  cases i with
  | jle => cases h : cfg.jle <;> simp [Instr.opcode, Config.rejects, Instr.wellFormed, h]
  | peq | pnq | pgt | plt | pge | ple =>
    cases h : cfg.condReturn <;> simp [Instr.opcode, Config.rejects, Instr.wellFormed, h]
  | _ => rfl

theorem Config.rejects_eq_true_iff (cfg : Config) (op : Opcode) :
    cfg.rejects op = true ↔ (op = .jle ∧ cfg.jle = .rejected) ∨
      (op ∈ [Opcode.peq, .pnq, .pgt, .plt, .pge, .ple] ∧ cfg.condReturn = .rejected) := by
  cases op <;> simp [Config.rejects]

theorem Support.ne_rejected_iff (x : Support) : x ≠ .rejected ↔ x = .implemented := by
  cases x <;> decide

/-- The opcodes that a configuration executes, in the statements' own term. -/
theorem implemented_iff (cfg : Config) (op : Opcode) :
    Implemented cfg op ↔ cfg.rejects op = false := by
  rw [← Bool.not_eq_true, Config.rejects_eq_true_iff, Implemented, ← Support.ne_rejected_iff,
    ← Support.ne_rejected_iff]
  tauto

/-- The byte `b` is an opcode byte of the configuration's map, and the configuration executes the
opcode. `OP_UNIGNORE` is among these opcodes: it decodes. -/
def Config.Executes (cfg : Config) (b : Byte) (op : Opcode) : Prop :=
  cfg.opcodeOf b = some op ∧ cfg.rejects op = false

theorem Config.Executes.code_eq {cfg : Config} {b : Byte} {op : Opcode} (h : cfg.Executes b op) :
    cfg.opcodes.code op = b := by
  obtain ⟨hop, -⟩ := h
  exact cfg.code_of_opcodeOf b op hop

theorem Config.executes_code_iff (cfg : Config) (h : cfg.opcodes.Distinct) (op : Opcode) :
    cfg.Executes (cfg.opcodes.code op) op ↔ Implemented cfg op := by
  simp [Config.Executes, cfg.opcodeOf_code h, implemented_iff]

theorem Config.not_executes_code (cfg : Config) (h : cfg.opcodes.Distinct) {op p : Opcode}
    (hr : cfg.rejects op = true) : ¬ cfg.Executes (cfg.opcodes.code op) p := by
  rintro ⟨hp, hp'⟩
  cases Option.some.inj ((cfg.opcodeOf_code h op).symm.trans hp)
  simp [hr] at hp'

/-- A byte is not executable exactly if it is no executed opcode but the end sentinel. -/
theorem notExecutable_iff (cfg : Config) (h : cfg.opcodes.Distinct) (b : Byte) :
    NotExecutable cfg b ↔ ∀ op, cfg.Executes b op → op = .opUnignore := by
  constructor
  · intro hb op hop
    have hrej : ∀ p, b = cfg.opcodes.code p → cfg.rejects p = true → op = .opUnignore :=
      fun p hp hr => absurd (hp ▸ hop) (cfg.not_executes_code h hr)
    rcases hb with hb | hb | ⟨hr, hb⟩ | ⟨hr, hb⟩
    · exact absurd hop.code_eq (hb op)
    · exact OpcodeMap.code_injective _ h op .opUnignore (hop.code_eq.trans hb)
    · exact hrej .jle hb (by simp [Config.rejects, hr])
    · rcases hb with hb | hb | hb | hb | hb | hb
      · exact hrej .peq hb (by simp [Config.rejects, hr])
      · exact hrej .pnq hb (by simp [Config.rejects, hr])
      · exact hrej .pgt hb (by simp [Config.rejects, hr])
      · exact hrej .plt hb (by simp [Config.rejects, hr])
      · exact hrej .ple hb (by simp [Config.rejects, hr])
      · exact hrej .pge hb (by simp [Config.rejects, hr])
  · intro hb
    by_cases hop : ∃ op, cfg.opcodes.code op = b
    · obtain ⟨op, rfl⟩ := hop
      cases hr : cfg.rejects op with
      | false => exact .inr (.inl (hb op ⟨cfg.opcodeOf_code h op, hr⟩ ▸ rfl))
      | true =>
        rcases (cfg.rejects_eq_true_iff op).mp hr with ⟨rfl, hj⟩ | ⟨hmem, hc⟩
        · exact .inr (.inr (.inl ⟨hj, rfl⟩))
        · refine .inr (.inr (.inr ⟨hc, ?_⟩))
          simp only [List.mem_cons, List.not_mem_nil, or_false] at hmem
          rcases hmem with rfl | rfl | rfl | rfl | rfl | rfl <;> simp [OpcodeMap.code]
    · exact .inl fun op hop' => hop ⟨op, hop'⟩

/-! ### The bytes of an instruction -/

theorem encode_length (m : OpcodeMap) (i : Instr) : (encode m i).length = i.opcode.length := by
  cases i with
  | _ => rfl

theorem encode_eq_cons (m : OpcodeMap) (i : Instr) :
    encode m i = m.code i.opcode :: (encode m i).tail := by
  cases i with
  | _ => rfl

/-- The operand bytes of an instruction and its opcode byte make up its length. -/
theorem length_encode_tail (m : OpcodeMap) (i : Instr) :
    (encode m i).tail.length + 1 = i.opcode.length := by
  rw [← encode_length m i, List.length_tail]
  have := i.opcode.length_pos
  rw [← encode_length m i] at this
  omega

/-! ### Reading operand bytes -/

/-- What reading the operands of the opcode `op` from the bytes `bs` can answer. The operand bytes of an
instruction do not depend on the map `m`. -/
inductive OperandsCase (m : OpcodeMap) (op : Opcode) (bs : List Byte) : Decoded → Prop
  /-- an instruction of this opcode, whose operand bytes `bs` begins with -/
  | complete (i : Instr) (rest : List Byte) (hop : i.opcode = op)
      (hbs : bs = (encode m i).tail ++ rest) : OperandsCase m op bs (.instr i rest)
  /-- fewer bytes than the operands take -/
  | truncated (hlen : bs.length + 1 < op.length) : OperandsCase m op bs .endOfRom

variable {m : OpcodeMap} {op : Opcode} {bs : List Byte}

theorem operandsCase_of_readZ {i : Instr} (hread : decodeOperands op = readZ i)
    (hop : i.opcode = op) (henc : (encode m i).tail = []) :
    OperandsCase m op bs (decodeOperands op bs) := by
  rw [hread]
  exact .complete i bs hop (by rw [henc, List.nil_append])

theorem operandsCase_of_readTwo {mk : Byte → Byte → Instr} (hread : decodeOperands op = readTwo mk)
    (hlen : op.length = 3) (hop : ∀ x y, (mk x y).opcode = op)
    (henc : ∀ x y, (encode m (mk x y)).tail = [x, y]) :
    OperandsCase m op bs (decodeOperands op bs) := by
  rw [hread]
  match bs with
  | x :: y :: rest => exact .complete _ rest (hop x y) (by rw [henc]; rfl)
  | [] | [_] => exact .truncated (by simp [hlen])

theorem operandsCase_of_readL {mk : Addr → Instr} (hread : decodeOperands op = readL mk)
    (hlen : op.length = 3) (hop : ∀ w, (mk w).opcode = op)
    (henc : ∀ hi lo, (encode m (mk (wordOf hi lo))).tail = [hi, lo]) :
    OperandsCase m op bs (decodeOperands op bs) := by
  rw [hread]
  match bs with
  | hi :: lo :: rest => exact .complete _ rest (hop _) (by rw [henc]; rfl)
  | [] | [_] => exact .truncated (by simp [hlen])

theorem operandsCase_of_readRW {mk : Byte → Addr → Instr} (hread : decodeOperands op = readRW mk)
    (hlen : op.length = 4) (hop : ∀ x w, (mk x w).opcode = op)
    (henc : ∀ x hi lo, (encode m (mk x (wordOf hi lo))).tail = [x, hi, lo]) :
    OperandsCase m op bs (decodeOperands op bs) := by
  rw [hread]
  match bs with
  | x :: hi :: lo :: rest => exact .complete _ rest (hop x _) (by rw [henc]; rfl)
  | [] | [_] | [_, _] => exact .truncated (by simp [hlen])

theorem operandsCase_of_readWordByte {mk : Addr → Byte → Instr}
    (hread : decodeOperands op = readWordByte mk) (hlen : op.length = 4)
    (hop : ∀ w x, (mk w x).opcode = op)
    (henc : ∀ hi lo x, (encode m (mk (wordOf hi lo) x)).tail = [hi, lo, x]) :
    OperandsCase m op bs (decodeOperands op bs) := by
  rw [hread]
  match bs with
  | hi :: lo :: x :: rest => exact .complete _ rest (hop _ x) (by rw [henc]; rfl)
  | [] | [_] | [_, _] => exact .truncated (by simp [hlen])

theorem operandsCase_of_readRRR {mk : Byte → Byte → Byte → Instr}
    (hread : decodeOperands op = readRRR mk) (hlen : op.length = 4)
    (hop : ∀ a b d, (mk a b d).opcode = op)
    (henc : ∀ a b d, (encode m (mk a b d)).tail = [a, b, d]) :
    OperandsCase m op bs (decodeOperands op bs) := by
  rw [hread]
  match bs with
  | a :: b :: d :: rest => exact .complete _ rest (hop a b d) (by rw [henc]; rfl)
  | [] | [_] | [_, _] => exact .truncated (by simp [hlen])

theorem operandsCase_of_readRRL {mk : Byte → Byte → Addr → Instr}
    (hread : decodeOperands op = readRRL mk) (hlen : op.length = 5)
    (hop : ∀ a b w, (mk a b w).opcode = op)
    (henc : ∀ a b hi lo, (encode m (mk a b (wordOf hi lo))).tail = [a, b, hi, lo])
    : OperandsCase m op bs (decodeOperands op bs) := by
  rw [hread]
  match bs with
  | a :: b :: hi :: lo :: rest => exact .complete _ rest (hop a b _) (by rw [henc]; rfl)
  | [] | [_] | [_, _] | [_, _, _] => exact .truncated (by simp [hlen])

theorem decodeOperands_cases (m : OpcodeMap) (op : Opcode) (bs : List Byte) :
    OperandsCase m op bs (decodeOperands op bs) := by
  cases op with
  | nop | nxt | hlt | pop | opIgnore | opUnignore => exact operandsCase_of_readZ rfl rfl rfl
  | smr | smb =>
    exact operandsCase_of_readWordByte rfl rfl (fun _ _ => rfl) (fun _ _ _ => by simp [encode])
  | srm => exact operandsCase_of_readRW rfl rfl (fun _ _ => rfl) (fun _ _ _ => by simp [encode])
  | srb | srr | not | peq | pnq | pgt | plt | pge | ple =>
    exact operandsCase_of_readTwo rfl rfl (fun _ _ => rfl) (fun _ _ => rfl)
  | add | sub | mul | div | mod | xor | and | orr | xnr | nan | nor | bsl | bsr =>
    exact operandsCase_of_readRRR rfl rfl (fun _ _ _ => rfl) (fun _ _ _ => rfl)
  | psh | jmp => exact operandsCase_of_readL rfl rfl (fun _ => rfl) (fun _ _ => by simp [encode])
  | teq | tnq | tgt | tlt | tge | tle | jeq | jnq | jgt | jlt | jge | jle =>
    exact operandsCase_of_readRRL rfl rfl (fun _ _ _ => rfl) (fun _ _ _ _ => by simp [encode])

/-- The operand bytes of an instruction are read as that instruction: a word from its own two bytes is
the word, and every other operand is a byte. -/
theorem decodeOperands_encode_tail (m : OpcodeMap) (i : Instr) (rest : List Byte) :
    decodeOperands i.opcode ((encode m i).tail ++ rest) = .instr i rest := by
  cases i with
  | nop | nxt | hlt | pop | opIgnore | opUnignore => rfl
  | smr | smb => simp [Instr.opcode, decodeOperands, encode, readWordByte]
  | srm => simp [Instr.opcode, decodeOperands, encode, readRW]
  | srb | srr | not | peq | pnq | pgt | plt | pge | ple => rfl
  | add | sub | mul | div | mod | xor | and | orr | xnr | nan | nor | bsl | bsr => rfl
  | psh | jmp => simp [Instr.opcode, decodeOperands, encode, readL]
  | teq | tnq | tgt | tlt | tge | tle | jeq | jnq | jgt | jlt | jge | jle =>
    simp [Instr.opcode, decodeOperands, encode, readRRL]

theorem decodeOperands_eq_instr (m : OpcodeMap) (op : Opcode) (bs rest : List Byte) (i : Instr) :
    decodeOperands op bs = .instr i rest ↔ i.opcode = op ∧ bs = (encode m i).tail ++ rest := by
  constructor
  · intro h
    have hcase := h ▸ decodeOperands_cases m op bs
    cases hcase with
    | complete _ _ hop hbs => exact ⟨hop, hbs⟩
  · rintro ⟨rfl, rfl⟩
    exact decodeOperands_encode_tail m i rest

theorem decodeOperands_eq_endOfRom (op : Opcode) (bs : List Byte) :
    decodeOperands op bs = .endOfRom ↔ bs.length + 1 < op.length := by
  have hcase := decodeOperands_cases OpcodeMap.specDefault op bs
  generalize decodeOperands op bs = d at hcase ⊢
  cases hcase with
  | complete i rest hop hbs =>
    have hlen := length_encode_tail OpcodeMap.specDefault i
    simp [hbs, ← hop, ← hlen]
  | truncated hlen => simp [hlen]

theorem decodeOperands_ne_invalidOpcode (op : Opcode) (bs : List Byte) (b : Byte) :
    decodeOperands op bs ≠ .invalidOpcode b := by
  intro h
  have hcase := h ▸ decodeOperands_cases OpcodeMap.specDefault op bs
  cases hcase

/-! ### The three answers of `decode` -/

theorem decode_cons_of_executes (cfg : Config) (b : Byte) (bs : List Byte) (op : Opcode)
    (h : cfg.Executes b op) : decode cfg (b :: bs) = decodeOperands op bs := by
  obtain ⟨hop, hr⟩ := h
  simp [decode, hop, hr]

theorem decode_cons_of_not_executes (cfg : Config) (b : Byte) (bs : List Byte)
    (h : ∀ op, ¬ cfg.Executes b op) : decode cfg (b :: bs) = .invalidOpcode b := by
  cases hop : cfg.opcodeOf b with
  | none => simp [decode, hop]
  | some op =>
    have hr : cfg.rejects op = true := by simpa [Config.Executes, hop] using h op
    simp [decode, hop, hr]

/-- A rejected opcode is refused before its operands are looked for (D22). -/
theorem decode_code_of_rejects (cfg : Config) (h : cfg.opcodes.Distinct) (op : Opcode)
    (hr : cfg.rejects op = true) (bs : List Byte) :
    decode cfg (cfg.opcodes.code op :: bs) = .invalidOpcode (cfg.opcodes.code op) :=
  decode_cons_of_not_executes cfg _ bs fun _ => cfg.not_executes_code h hr

theorem decode_eq_instr (cfg : Config) (bs rest : List Byte) (i : Instr) :
    decode cfg bs = .instr i rest ↔
      ∃ b, bs = b :: ((encode cfg.opcodes i).tail ++ rest) ∧ cfg.Executes b i.opcode := by
  constructor
  · intro h
    cases bs with
    | nil => cases h
    | cons b bs =>
      by_cases hb : ∃ op, cfg.Executes b op
      · obtain ⟨op, hop⟩ := hb
        rw [decode_cons_of_executes cfg b bs op hop,
          decodeOperands_eq_instr cfg.opcodes] at h
        obtain ⟨rfl, rfl⟩ := h
        exact ⟨b, rfl, hop⟩
      · rw [decode_cons_of_not_executes cfg b bs fun op hop => hb ⟨op, hop⟩] at h
        cases h
  · rintro ⟨b, rfl, hop⟩
    rw [decode_cons_of_executes cfg b _ _ hop, decodeOperands_encode_tail]

theorem decode_eq_invalidOpcode (cfg : Config) (bs : List Byte) (c : Byte) :
    decode cfg bs = .invalidOpcode c ↔ ∃ bs', bs = c :: bs' ∧ ∀ op, ¬ cfg.Executes c op := by
  constructor
  · intro h
    cases bs with
    | nil => cases h
    | cons b bs =>
      by_cases hb : ∃ op, cfg.Executes b op
      · obtain ⟨op, hop⟩ := hb
        rw [decode_cons_of_executes cfg b bs op hop] at h
        exact absurd h (decodeOperands_ne_invalidOpcode op bs c)
      · have hb' : ∀ op, ¬ cfg.Executes b op := fun op hop => hb ⟨op, hop⟩
        rw [decode_cons_of_not_executes cfg b bs hb'] at h
        cases h
        exact ⟨bs, rfl, hb'⟩
  · rintro ⟨bs', rfl, hc⟩
    exact decode_cons_of_not_executes cfg c bs' hc

theorem decode_eq_endOfRom (cfg : Config) (bs : List Byte) :
    decode cfg bs = .endOfRom ↔
      bs = [] ∨ ∃ b bs' op, bs = b :: bs' ∧ cfg.Executes b op ∧ bs.length < op.length := by
  constructor
  · intro h
    cases bs with
    | nil => exact .inl rfl
    | cons b bs =>
      by_cases hb : ∃ op, cfg.Executes b op
      · obtain ⟨op, hop⟩ := hb
        rw [decode_cons_of_executes cfg b bs op hop, decodeOperands_eq_endOfRom] at h
        exact .inr ⟨b, bs, op, rfl, hop, h⟩
      · rw [decode_cons_of_not_executes cfg b bs fun op hop => hb ⟨op, hop⟩] at h
        cases h
  · rintro (rfl | ⟨b, bs', op, rfl, hop, hlen⟩)
    · rfl
    · rw [decode_cons_of_executes cfg b bs' op hop, decodeOperands_eq_endOfRom]
      exact hlen

/-- What decodes to an instruction is its encoding and the bytes after it. -/
theorem eq_encode_append_of_decode (cfg : Config) (bs rest : List Byte) (i : Instr)
    (h : decode cfg bs = .instr i rest) : bs = encode cfg.opcodes i ++ rest := by
  obtain ⟨b, rfl, hop⟩ := (decode_eq_instr cfg bs rest i).mp h
  rw [encode_eq_cons, hop.code_eq, List.cons_append, List.tail_cons]

theorem wellFormed_of_decode (cfg : Config) (bs rest : List Byte) (i : Instr)
    (h : decode cfg bs = .instr i rest) : i.wellFormed cfg = true := by
  obtain ⟨b, -, -, hr⟩ := (decode_eq_instr cfg bs rest i).mp h
  simpa [Config.rejects_opcode] using hr

/-! ### The obligations -/

/-- Settles O1: the opcode byte is read as its opcode, since the bytes of the map are distinct, and the
operand bytes as the operands. -/
theorem decodeEncodeRoundTrip : Obligations.DecodeEncodeRoundTrip := by
  intro cfg i rest hwf hi
  obtain ⟨hdistinct, -⟩ := hwf
  refine (decode_eq_instr cfg _ rest i).mpr ⟨cfg.opcodes.code i.opcode, ?_, ?_, ?_⟩
  · rw [encode_eq_cons, List.cons_append, List.tail_cons]
  · exact cfg.opcodeOf_code hdistinct i.opcode
  · rw [Config.rejects_opcode, hi, Bool.not_true]

/-- Settles O2, for each of the nine formats by what its reader accepts (`decodeOperands_cases`). -/
theorem encodeDecodeRoundTrip : Obligations.EncodeDecodeRoundTrip := fun cfg bs rest i h =>
  ⟨eq_encode_append_of_decode cfg bs rest i h, wellFormed_of_decode cfg bs rest i h⟩

/-- Settles O6: the bytes of an executed opcode run out exactly when they are fewer than its length. -/
theorem truncatedBytesAreEndOfRom : Obligations.TruncatedBytesAreEndOfRom := by
  intro cfg bs hwf
  obtain ⟨hdistinct, -⟩ := hwf
  rw [decode_eq_endOfRom]
  refine or_congr_right ⟨?_, ?_⟩
  · rintro ⟨b, bs', op, rfl, hop, hlen⟩
    obtain rfl := hop.code_eq
    exact ⟨op, bs', rfl, (cfg.executes_code_iff hdistinct op).mp hop, hlen⟩
  · rintro ⟨op, rest, rfl, himpl, hlen⟩
    exact ⟨_, rest, op, rfl, (cfg.executes_code_iff hdistinct op).mpr himpl, hlen⟩

/-- Settles O3, word by word. -/
theorem tableWordsDecode : Obligations.TableWordsDecode := by
  unfold Obligations.TableWordsDecode
  decide

/-- Settles O4: the map is a table of constants. -/
theorem defaultOpcodeBytes : Obligations.DefaultOpcodeBytes :=
  ⟨rfl, rfl, Config.specDefault_wf⟩

/-- The 211 byte values that the default map gives no opcode, as the table of R59 lists them. -/
theorem specDefault_opcodeOf_eq_none (b : Byte) : Config.specDefault.opcodeOf b = none ↔
    (0x03 ≤ b.toNat ∧ b.toNat ≤ 0x0F) ∨ (0x15 ≤ b.toNat ∧ b.toNat ≤ 0x1F) ∨
    (0x2D ≤ b.toNat ∧ b.toNat ≤ 0x2F) ∨ (0x31 ≤ b.toNat ∧ b.toNat ≤ 0x3F) ∨
    b.toNat = 0x47 ∨ b.toNat = 0x4F ∨ (0x57 ≤ b.toNat ∧ b.toNat ≤ 0xFD) := by
  revert b
  decide

theorem specDefault_rejects (op : Opcode) : Config.specDefault.rejects op = false := by
  cases op with
  | _ => rfl

/-- The default configuration rejects nothing, so a byte is refused exactly if its map lacks it. -/
theorem decode_specDefault_eq_invalidOpcode (b : Byte) (bs : List Byte) :
    decode Config.specDefault (b :: bs) = .invalidOpcode b ↔
      Config.specDefault.opcodeOf b = none := by
  simp [decode_eq_invalidOpcode, Config.Executes, specDefault_rejects,
    Option.eq_none_iff_forall_ne_some]

/-- Settles O5: the default map has no other byte than the 45 of R54, and a rejected opcode's byte is
refused whatever follows it. -/
theorem unlistedBytesAreInvalid : Obligations.UnlistedBytesAreInvalid := by
  obtain ⟨hdistinct, -⟩ := Config.specDefault_wf
  refine ⟨fun b bs => ?_, fun bs => ?_, fun b bs hlo hhi => ?_⟩
  · rw [decode_specDefault_eq_invalidOpcode, specDefault_opcodeOf_eq_none]
  · exact decode_code_of_rejects { Config.specDefault with jle := .rejected } hdistinct .jle rfl bs
  · have hreturns : ∀ op ∈ [Opcode.peq, .pnq, .pgt, .plt, .pge, .ple],
        decode { Config.specDefault with condReturn := .rejected }
            (OpcodeMap.specDefault.code op :: bs) =
          .invalidOpcode (OpcodeMap.specDefault.code op) := fun op hop =>
      decode_code_of_rejects { Config.specDefault with condReturn := .rejected } hdistinct op
        ((Config.rejects_eq_true_iff _ op).mpr (.inr ⟨hop, rfl⟩)) bs
    have hb : b = 0x51 ∨ b = 0x52 ∨ b = 0x53 ∨ b = 0x54 ∨ b = 0x55 ∨ b = 0x56 := by bv_omega
    rcases hb with rfl | rfl | rfl | rfl | rfl | rfl
    · exact hreturns .peq (by simp)
    · exact hreturns .pnq (by simp)
    · exact hreturns .pgt (by simp)
    · exact hreturns .plt (by simp)
    · exact hreturns .pge (by simp)
    · exact hreturns .ple (by simp)

end Sys2Proof
end

section
/-! One step (40_step_dispatch.md R70 to R76). The converse of `step_cases`: each way a step can
complete is what the step does. With what decoding answers, each rule about a step is the choice of one
such way. -/

namespace Sys2Proof.Machine

open Sys2Proof.Claims

/-! ### The instruction at the cursor -/

theorem Dispatches.exists_rest {s : State} {i : Instr} (h : Dispatches s i) :
    ∃ rest, s.rom.drop s.pc.toNat = encode s.cfg.opcodes i ++ rest := by
  obtain ⟨-, -, rest, hdec⟩ := h
  exact ⟨rest, eq_encode_append_of_decode s.cfg _ rest i hdec⟩

theorem Dispatches.byte_eq {s : State} {i : Instr} (h : Dispatches s i) :
    s.rom[s.pc.toNat]? = some (s.cfg.opcodes.code i.opcode) := by
  obtain ⟨rest, hrest⟩ := h.exists_rest
  rw [← List.head?_drop, hrest, encode_eq_cons, List.cons_append, List.head?_cons]

/-- A dispatched instruction lies inside the ROM. -/
theorem Dispatches.length_le {s : State} {i : Instr} (h : Dispatches s i) :
    s.pc.toNat + i.opcode.length ≤ s.rom.length := by
  obtain ⟨rest, hrest⟩ := h.exists_rest
  have hlen := congrArg List.length hrest
  rw [List.length_drop, List.length_append, encode_length] at hlen
  have := i.opcode.length_pos
  omega

theorem Dispatches.wellFormed {s : State} {i : Instr} (h : Dispatches s i) :
    i.wellFormed s.cfg = true := by
  obtain ⟨-, -, rest, hdec⟩ := h
  exact wellFormed_of_decode s.cfg _ rest i hdec

theorem Dispatches.ignoring_eq_false {s : State} {i : Instr} (h : Dispatches s i) :
    s.ignoring = false := by
  obtain ⟨-, hi, -⟩ := h
  exact hi

/-- The cursor's sum is that of natural numbers where 17 bits hold it. -/
theorem cursor_add_toNat (c : Cursor) (n : Nat) (h : c.toNat + n < 131072) :
    (c + BitVec.ofNat 17 n).toNat = c.toNat + n := by
  rw [BitVec.toNat_add, BitVec.toNat_ofNat]
  omega

/-! ### What a step does in each case -/

theorem step_of_dispatches (s : State) (i : Instr) (hrom : s.RomOk) (h : Dispatches s i) :
    step s = exec i s := by
  obtain ⟨b, hb⟩ := h.exists_byte
  obtain ⟨hhalt, hi, rest, hdec⟩ := h
  simp [step_eq s hrom, hhalt, fetchByte, hb, hi, fetchDecode, hdec]

theorem step_of_stepCase (s t : State) (hrom : s.RomOk) (h : StepCase s t) : step s = .next t := by
  cases h with
  | halted h => exact step_of_halt s hrom h
  | pastRom hr h => simp [step_eq s hrom, hr, (fetchByte_eq_none s).mpr h, raise]
  | scanned b hr hi hb => simp [step_eq s hrom, hr, fetchByte, hb, hi, scanByte_eq]
  | dispatched i _ hd h => exact (step_of_dispatches s i hrom hd).trans h
  | invalid b hr hi hb =>
    obtain ⟨bs, hbs, -⟩ := (decode_eq_invalidOpcode _ _ _).mp hb
    have hbyte : s.rom[s.pc.toNat]? = some b := by rw [← List.head?_drop, hbs, List.head?_cons]
    simp [step_eq s hrom, hr, fetchByte, hbyte, hi, fetchDecode, hb, raise]
  | truncated hr hi hb =>
    cases hbyte : s.rom[s.pc.toNat]? with
    | none => simp [step_eq s hrom, hr, fetchByte, hbyte, raise]
    | some b => simp [step_eq s hrom, hr, fetchByte, hbyte, hi, fetchDecode, hb, raise]

/-! ### Every step completes -/

theorem commit_completes (s : State) (effect : Except Status State) :
    ∃ t, commit s effect = .next t := by
  cases effect with
  | ok t => exact ⟨t, rfl⟩
  | error st => exact ⟨_, rfl⟩

theorem transfer_completes (op : Opcode) (taken : Bool) (target : Addr) (s : State) :
    ∃ t, transfer op taken target s = .next t := by
  unfold transfer
  split_ifs with htaken hcall
  · exact commit_completes s _
  · exact ⟨_, rfl⟩
  · exact ⟨_, rfl⟩

theorem returnWhen_completes (op : Opcode) (taken : Bool) (s : State) :
    ∃ t, returnWhen op taken s = .next t := by
  unfold returnWhen
  split_ifs with htaken
  · exact commit_completes s _
  · exact ⟨_, rfl⟩

theorem returnIf_completes (op : Opcode) (cc : Cond) (a b : Byte) (s : State) :
    ∃ t, returnIf op cc a b s = .next t := by
  rw [returnIf_eq]
  cases s.cfg.condReturn with
  | implemented => exact returnWhen_completes op _ s
  | rejected => exact ⟨_, rfl⟩

/-- Every instruction has a meaning that completes: none is refused. -/
theorem exec_completes (i : Instr) (s : State) : ∃ t, exec i s = .next t := by
  cases i with
  | nop | nxt | hlt | opIgnore | srb | srr | not => exact ⟨_, rfl⟩
  | add | sub | mul | xor | and | orr | xnr | nan | nor | bsl | bsr => exact ⟨_, rfl⟩
  | smr | smb | srm | div | mod => exact commit_completes s _
  | psh g | jmp g => exact transfer_completes _ true g s
  | teq | tnq | tgt | tlt | tge | tle | jeq | jnq | jgt | jlt | jge =>
    exact transfer_completes _ _ _ s
  | jle a b g =>
    cases hj : s.cfg.jle with
    | implemented =>
      simp only [exec, execJle, hj]
      exact transfer_completes _ _ g s
    | rejected => simp [exec, execJle, hj, raise]
  | pop => exact returnWhen_completes .pop true s
  | peq | pnq | pgt | plt | pge | ple => exact returnIf_completes _ _ _ _ s
  | opUnignore =>
    cases hi : s.ignoring with
    | true => simp [exec, execOpUnignore, hi]
    | false => simp [exec, execOpUnignore, hi, raise]

/-- A state is in one of the cases of a step. -/
theorem exists_stepCase (s : State) : ∃ t, StepCase s t := by
  cases hr : s.halt with
  | true => exact ⟨_, .halted hr⟩
  | false =>
    cases hb : s.rom[s.pc.toNat]? with
    | none => exact ⟨_, .pastRom hr (List.getElem?_eq_none_iff.mp hb)⟩
    | some b =>
      cases hi : s.ignoring with
      | true => exact ⟨_, .scanned b hr hi hb⟩
      | false =>
        cases hd : decode s.cfg (s.rom.drop s.pc.toNat) with
        | instr i rest =>
          obtain ⟨t, ht⟩ := exec_completes i s
          exact ⟨t, .dispatched i t ⟨hr, hi, rest, hd⟩ ht⟩
        | invalidOpcode c => exact ⟨_, .invalid c hr hi hd⟩
        | endOfRom => exact ⟨_, .truncated hr hi hd⟩

theorem step_completes (s : State) (hrom : s.RomOk) : ∃ t, step s = .next t := by
  obtain ⟨t, ht⟩ := exists_stepCase s
  exact ⟨t, step_of_stepCase s t hrom ht⟩

theorem step_refused_iff (s : State) : (∃ r, step s = .refused r) ↔ ¬ s.RomOk := by
  constructor
  · rintro ⟨r, hr⟩ hrom
    obtain ⟨t, ht⟩ := step_completes s hrom
    rw [hr] at ht
    cases ht
  · intro hrom
    cases hr : romRefusal s.rom with
    | none => exact absurd ((State.romRefusal_none s).mp hr) hrom
    | some r => exact ⟨r, by simp only [step, cycle, hr]⟩

/-! ### The obligations -/

/-- Settles O7. -/
theorem stepRunsDecodedInstruction : Obligations.StepRunsDecodedInstruction := step_of_dispatches

/-- Settles O13: the cases of a step leave no state out, and there is no model fault. -/
theorem stepStopsOnlyWithoutMachine : Obligations.StepStopsOnlyWithoutMachine :=
  ⟨step_completes, step_refused_iff, fun _ r => nomatch r⟩

/-- Settles O9: the fetch finds no byte, before the mode is looked at. -/
theorem fetchPastRomFaults : Obligations.FetchPastRomFaults := fun s hrom hr hpc =>
  ⟨_, step_of_stepCase s _ hrom (.pastRom hr hpc), rfl⟩

/-- Settles O10: the byte scanned lies in the ROM, so the cursor's sum does not wrap. -/
theorem scanStepPassesOneByte : Obligations.ScanStepPassesOneByte := by
  intro s b hrom hr hi hb
  refine ⟨_, step_of_stepCase s _ hrom (.scanned b hr hi hb), ?_⟩
  obtain ⟨hpc, -⟩ := List.getElem?_eq_some_iff.mp hb
  have hadd : (s.pc + BitVec.ofNat 17 1).toNat = s.pc.toNat + 1 := by
    obtain ⟨-, hlen⟩ := hrom
    rw [maxRomLen] at hlen
    exact cursor_add_toNat s.pc 1 (by omega)
  exact ⟨hadd, by simp, hr, rfl, fun _ => rfl, fun _ => rfl, ⟨rfl, rfl⟩, rfl, rfl⟩

theorem exec_opUnignore_of_not_ignoring (s : State) (hi : s.ignoring = false) :
    exec .opUnignore s = raise .invalidInstruction s := by
  simp [exec, execOpUnignore, hi]

/-- Settles O11: the byte decodes to nothing, or to the end sentinel, which faults in normal mode. -/
theorem nonExecutableOpcodeFaults : Obligations.NonExecutableOpcodeFaults := by
  intro s b hwf hrom hr hi hb hne
  obtain ⟨hdistinct, -⟩ := hwf
  rw [notExecutable_iff s.cfg hdistinct] at hne
  have hdrop := drop_pc_eq_cons s b hb
  refine ⟨_, step_of_stepCase s _ hrom ?_, rfl⟩
  by_cases hex : ∃ op, s.cfg.Executes b op
  · obtain ⟨op, hop⟩ := hex
    obtain rfl := hne op hop
    have hd : Dispatches s .opUnignore :=
      ⟨hr, hi, _, by rw [hdrop, decode_cons_of_executes s.cfg b _ _ hop]; rfl⟩
    exact .dispatched .opUnignore _ hd (exec_opUnignore_of_not_ignoring s hi)
  · have hdec := decode_cons_of_not_executes s.cfg b (s.rom.drop (s.pc.toNat + 1))
      fun op hop => hex ⟨op, hop⟩
    exact .invalid b hr hi (hdrop ▸ hdec)

/-- The bytes from the cursor on end inside an instruction exactly if its opcode is at the cursor and
the ROM is too short for it, or if there are none. -/
theorem decode_drop_eq_endOfRom (s : State) (hdistinct : s.cfg.opcodes.Distinct) :
    decode s.cfg (s.rom.drop s.pc.toNat) = .endOfRom ↔ s.rom.length ≤ s.pc.toNat ∨
      ∃ op, s.rom[s.pc.toNat]? = some (s.cfg.opcodes.code op) ∧ Implemented s.cfg op ∧
        s.rom.length < s.pc.toNat + op.length := by
  rw [decode_eq_endOfRom, List.drop_eq_nil_iff]
  refine or_congr_right ⟨?_, ?_⟩
  · rintro ⟨b, bs, op, hbs, hop, hlen⟩
    obtain rfl := hop.code_eq
    refine ⟨op, ?_, (s.cfg.executes_code_iff hdistinct op).mp hop, ?_⟩
    · rw [← List.head?_drop, hbs, List.head?_cons]
    · rw [List.length_drop] at hlen
      omega
  · rintro ⟨op, hb, himpl, hlen⟩
    refine ⟨_, _, op, drop_pc_eq_cons s _ hb, (s.cfg.executes_code_iff hdistinct op).mpr himpl, ?_⟩
    have hpos := op.length_pos
    rw [List.length_drop]
    omega

/-- Settles O12. -/
theorem truncatedInstructionFaults : Obligations.TruncatedInstructionFaults := by
  intro s op hwf hrom hr hi hb himpl hlen
  obtain ⟨hdistinct, -⟩ := hwf
  have hdec := (decode_drop_eq_endOfRom s hdistinct).mpr (.inr ⟨op, hb, himpl, hlen⟩)
  exact ⟨_, step_of_stepCase s _ hrom (.truncated hr hi hdec), rfl⟩

end Sys2Proof.Machine
end

section
/-! The control and move instructions and the data-skip sentinels (41_control.md, 42_move.md,
46_data_skip.md R170, R171). Each is a field update followed by a retirement, so a rule for each kind of
update gives its result with its frame; the encodings are `decode_code`. -/

namespace Sys2Proof.Machine

open Sys2Proof.Claims

/-! ### Retirement and memory writes -/

/-- Retiring an instruction changes nothing but the cursor and the status. -/
theorem fallsThrough_retire (op : Opcode) (s : State) : FallsThrough op.length s (s.retire op) :=
  ⟨fun _ => rfl, fun _ => rfl, ⟨rfl, rfl⟩, ⟨rfl, rfl, rfl, rfl⟩, rfl, rfl⟩

/-- A memory write followed by the retirement of its instruction changes the byte, the cursor and the
status only. -/
theorem writesMemory_withMem_retire (op : Opcode) (s : State) (addr : Addr) (v : Byte)
    (hwf : s.mem.wf = true) :
    WritesMemory op.length addr v s ((s.withMem (s.mem.write addr v)).retire op) := by
  refine ⟨?_, fun a ha => ?_, fun _ => rfl, ⟨rfl, rfl⟩, ⟨rfl, rfl, rfl, rfl⟩, rfl, rfl⟩
  · simp [Memory.read_write _ _ _ _ hwf]
  · simp [Memory.read_write _ _ _ _ hwf, ha]

/-! ### What the moves answer -/

theorem exec_smr (addr : Addr) (r : Byte) (s : State) :
    exec (.smr addr r) s = .next ((s.withMem (s.mem.write addr (s.reg r))).retire .smr) := by
  simp [exec, execSmr, Except.map]

theorem exec_smb (addr : Addr) (imm : Byte) (s : State) :
    exec (.smb addr imm) s = .next ((s.withMem (s.mem.write addr imm)).retire .smb) := by
  simp [exec, execSmb, Except.map]

theorem exec_srm (d : Byte) (addr : Addr) (s : State) :
    exec (.srm d addr) s = .next ((s.setReg d (s.mem.read addr)).retire .srm) := by
  simp [exec, execSrm, Except.map]

/-! ### The obligations -/

/-- Settles O27. -/
theorem controlInstructionsResult : Obligations.ControlInstructionsResult := by
  refine ⟨fun cfg rest ⟨hdistinct, _⟩ => ⟨?_, ?_, ?_⟩, fun s => ?_, fun s => ?_, fun s => rfl⟩
  · exact decode_code cfg hdistinct .nop rest rfl
  · exact decode_code cfg hdistinct .nxt rest rfl
  · exact decode_code cfg hdistinct .hlt rest rfl
  · exact ⟨_, rfl, fallsThrough_retire .nop s⟩
  · exact ⟨_, rfl, rfl, rfl, fun _ => rfl, fun _ => rfl, ⟨rfl, rfl⟩, rfl, rfl, rfl, rfl⟩

/-- Settles O28: the bound check of a store never fails, and a canonical memory reads back what was
written. -/
theorem storesResult : Obligations.StoresResult := by
  refine ⟨fun cfg hi lo x rest ⟨hdistinct, _⟩ => ⟨?_, ?_⟩, fun s addr r hwf => ?_,
    fun s addr imm hwf => ?_⟩
  · exact decode_code cfg hdistinct .smr (hi :: lo :: x :: rest) rfl
  · exact decode_code cfg hdistinct .smb (hi :: lo :: x :: rest) rfl
  · exact ⟨_, exec_smr addr r s, writesMemory_withMem_retire .smr s addr _ hwf⟩
  · exact ⟨_, exec_smb addr imm s, writesMemory_withMem_retire .smb s addr imm hwf⟩

/-- Settles O29. -/
theorem loadFromMemoryResult : Obligations.LoadFromMemoryResult :=
  ⟨fun cfg d hi lo rest ⟨hdistinct, _⟩ =>
      decode_code cfg hdistinct .srm (d :: hi :: lo :: rest) rfl,
    fun s d addr => ⟨_, exec_srm d addr s, writesRegister_setReg_retire .srm s d _⟩⟩

/-- Settles O30. -/
theorem setRegisterResult : Obligations.SetRegisterResult :=
  ⟨fun cfg d imm rest ⟨hdistinct, _⟩ => decode_code cfg hdistinct .srb (d :: imm :: rest) rfl,
    fun s d imm => ⟨_, rfl, writesRegister_setReg_retire .srb s d imm⟩⟩

/-- Settles O31: the source is read before the destination is written, so equal registers are no
exception. -/
theorem copyRegisterResult : Obligations.CopyRegisterResult :=
  ⟨fun cfg d r rest ⟨hdistinct, _⟩ => decode_code cfg hdistinct .srr (d :: r :: rest) rfl,
    fun s d r => ⟨_, rfl, writesRegister_setReg_retire .srr s d (s.reg r)⟩⟩

/-- Settles O32: memory reads back what was written. -/
theorem loadAfterStoreReadsStoredByte : Obligations.LoadAfterStoreReadsStoredByte := by
  intro s t u addr r d hwf ht hu
  rw [exec_smr] at ht
  cases ht
  rw [exec_srm] at hu
  cases hu
  simp [Memory.read_write _ _ _ _ hwf]

/-- Settles O51. -/
theorem sentinelsResult : Obligations.SentinelsResult := by
  refine ⟨fun cfg rest ⟨hdistinct, _⟩ => ⟨?_, ?_⟩, fun s => rfl, fun s hi => ?_, fun s hi => ?_⟩
  · exact decode_code cfg hdistinct .opIgnore rest rfl
  · exact decode_code cfg hdistinct .opUnignore rest rfl
  · simp only [exec, execOpUnignore, hi, if_true]
    rfl
  · exact ⟨_, exec_opUnignore_of_not_ignoring s hi, rfl⟩

end Sys2Proof.Machine
end

section
/-! Division, the shifts and the complement (43_arith_bitwise.md R109, R110, R117 to R121), and the
identities between the results (R120). -/

namespace Sys2Proof.Machine

open Sys2Proof.Claims

/-! ### Division -/

theorem threeRegMayRaise_ok {op : Opcode} {f : Byte → Byte → Except Status Byte} {a b d v : Byte}
    {s : State} (h : f (s.reg a) (s.reg b) = .ok v) :
    threeRegMayRaise op f a b d s = .next ((s.setReg d v).retire op) :=
  (threeRegMayRaise_eq_next op f a b d s _).mpr (.inl ⟨v, h, rfl⟩)

theorem threeRegMayRaise_error {op : Opcode} {f : Byte → Byte → Except Status Byte} {a b d : Byte}
    {s : State} {st : Status} (h : f (s.reg a) (s.reg b) = .error st) :
    threeRegMayRaise op f a b d s = raise st s :=
  (threeRegMayRaise_eq_next op f a b d s _).mpr (.inr ⟨st, h, rfl⟩)

/-- An instruction of format `RRR` that runs `threeRegMayRaise` has the result that its function has on
unsigned values, where the function raises nothing for a divisor that is not 0. -/
theorem divisionSchema_of_threeRegMayRaise {mk : Byte → Byte → Byte → Instr} {op : Opcode}
    {g : DivZeroPolicy → Byte → Byte → Except Status Byte} {f : Nat → Nat → Nat}
    (hformat : op.format = .RRR) (hread : decodeOperands op = readRRR mk)
    (hexec : ∀ a b d s, exec (mk a b d) s = threeRegMayRaise op (g s.cfg.divZero) a b d s)
    (hvalue : ∀ p va vb, vb ≠ 0#8 → ∃ v, g p va vb = .ok v ∧ v.toNat = f va.toNat vb.toNat) :
    DivisionSchema mk op f := by
  refine ⟨decode_rrr mk op hformat hread, fun s a b d hb => ?_⟩
  have hb' : s.reg b ≠ 0#8 := fun h => hb (by rw [h]; rfl)
  obtain ⟨v, hv, hvnat⟩ := hvalue s.cfg.divZero (s.reg a) (s.reg b) hb'
  refine ⟨_, (hexec a b d s).trans (threeRegMayRaise_ok hv), ?_⟩
  have hlength : op.length = 4 := by rw [Opcode.length, hformat, Format.length]
  rw [← hvnat, ← hlength]
  exact writesRegister_setReg_retire op s d v

theorem exec_div (a b d : Byte) (s : State) :
    exec (.div a b d) s = threeRegMayRaise .div (aluDiv s.cfg.divZero) a b d s := rfl

theorem exec_mod (a b d : Byte) (s : State) :
    exec (.mod a b d) s = threeRegMayRaise .mod (aluMod s.cfg.divZero) a b d s := rfl

/-! A zero divisor, by the policy. -/

theorem aluDiv_zero_fault (va : Byte) : aluDiv .fault va 0#8 = .error .divideByZero := rfl

theorem aluMod_zero_fault (va : Byte) : aluMod .fault va 0#8 = .error .divideByZero := rfl

theorem aluDiv_zero_value (va : Byte) : aluDiv .value va 0#8 = .ok 255#8 := rfl

theorem aluMod_zero_value (va : Byte) : aluMod .value va 0#8 = .ok va := rfl

/-- A byte whose value is 0 is the byte 0. -/
theorem byte_eq_zero {v : Byte} (h : v.toNat = 0) : v = 0#8 := BitVec.eq_of_toNat_eq h

/-- Settles O34. -/
theorem divisionResult : Obligations.DivisionResult := by
  constructor
  · exact divisionSchema_of_threeRegMayRaise rfl rfl exec_div fun p va vb hb =>
      ⟨va / vb, aluDiv_nonzero p va vb hb, BitVec.toNat_udiv⟩
  · exact divisionSchema_of_threeRegMayRaise rfl rfl exec_mod fun p va vb hb =>
      ⟨va % vb, aluMod_nonzero p va vb hb, BitVec.toNat_umod⟩

/-- Settles O35. -/
theorem zeroDivisorFaults : Obligations.ZeroDivisorFaults := by
  intro s a b d hpolicy hb
  constructor
  · refine ⟨_, (exec_div a b d s).trans (threeRegMayRaise_error ?_), rfl⟩
    rw [hpolicy, byte_eq_zero hb, aluDiv_zero_fault]
  · refine ⟨_, (exec_mod a b d s).trans (threeRegMayRaise_error ?_), rfl⟩
    rw [hpolicy, byte_eq_zero hb, aluMod_zero_fault]

/-- Settles O36. -/
theorem zeroDivisorValuePolicy : Obligations.ZeroDivisorValuePolicy := by
  intro s a b d hpolicy hb
  constructor
  · refine ⟨_, (exec_div a b d s).trans (threeRegMayRaise_ok ?_),
      writesRegister_setReg_retire .div s d 255#8⟩
    rw [hpolicy, byte_eq_zero hb, aluDiv_zero_value]
  · refine ⟨_, (exec_mod a b d s).trans (threeRegMayRaise_ok ?_),
      writesRegister_setReg_retire .mod s d (s.reg a)⟩
    rw [hpolicy, byte_eq_zero hb, aluMod_zero_value]

/-! ### Shifts -/

theorem aluBsl_toNat (va vb : Byte) : (aluBsl va vb).toNat = va.toNat * 2 ^ vb.toNat % 256 := by
  rw [aluBsl, BitVec.toNat_shiftLeft, Nat.shiftLeft_eq]

theorem aluBsr_toNat (va vb : Byte) : (aluBsr va vb).toNat = va.toNat / 2 ^ vb.toNat := by
  rw [aluBsr, BitVec.toNat_ushiftRight, Nat.shiftRight_eq_div_pow]

/-- The count is the whole byte: no bit of it is masked (D8). -/
theorem aluBsl_of_eight_le (va vb : Byte) (h : 8 ≤ vb.toNat) : aluBsl va vb = 0#8 :=
  BitVec.shiftLeft_eq_zero h

theorem aluBsr_of_eight_le (va vb : Byte) (h : 8 ≤ vb.toNat) : aluBsr va vb = 0#8 :=
  BitVec.ushiftRight_eq_zero h

/-- Settles O38. -/
theorem shiftResult : Obligations.ShiftResult := by
  refine ⟨threeRegisterResult_of_threeReg rfl rfl (fun _ _ _ _ => rfl) aluBsl_toNat,
    threeRegisterResult_of_threeReg rfl rfl (fun _ _ _ _ => rfl) aluBsr_toNat, ?_⟩
  rintro s t a b d hcount (h | h)
  · cases h
    simp [aluBsl_of_eight_le _ _ hcount]
  · cases h
    simp [aluBsr_of_eight_le _ _ hcount]

/-! ### Complement and identities -/

/-- Settles O39. -/
theorem complementResult : Obligations.ComplementResult := by
  refine ⟨fun cfg r d rest ⟨hdistinct, _⟩ => decode_code cfg hdistinct .not (r :: d :: rest) rfl,
    fun s r d => ⟨_, rfl, ?_⟩⟩
  rw [← aluNot_toNat]
  exact writesRegister_setReg_retire .not s d _

/-- Subtraction adds the two's complement (R120(g)). -/
theorem aluSub_eq_aluAdd (va vb : Byte) : aluSub va vb = aluAdd va (aluAdd (aluNot vb) 1) := by
  rw [aluSub, BitVec.sub_eq_add_neg, BitVec.neg_eq_not_add]
  rfl

/-- Quotient and remainder make up the dividend, whatever the policy for a zero divisor. -/
theorem aluDiv_aluMod_spec (va vb : Byte) (hb : vb.toNat ≠ 0) (p : DivZeroPolicy) :
    ∃ q r, aluDiv p va vb = .ok q ∧ aluMod p va vb = .ok r ∧
      va.toNat = q.toNat * vb.toNat + r.toNat ∧ r.toNat < vb.toNat := by
  have hb' : vb ≠ 0#8 := fun h => hb (by rw [h]; rfl)
  refine ⟨va / vb, va % vb, aluDiv_nonzero p va vb hb', aluMod_nonzero p va vb hb', ?_, ?_⟩
  · rw [BitVec.toNat_udiv, BitVec.toNat_umod]
    exact (Nat.div_add_mod' _ _).symm
  · rw [BitVec.toNat_umod]
    exact Nat.mod_lt _ (Nat.pos_of_ne_zero hb)

/-- Settles O40. -/
theorem arithmeticIdentities : Obligations.ArithmeticIdentities := fun va vb =>
  ⟨aluXnr_eq_aluNot va vb, aluNan_eq_aluNot va vb, aluNor_eq_aluNot va vb, aluSub_eq_aluAdd va vb,
    aluDiv_aluMod_spec va vb⟩

end Sys2Proof.Machine
end

section
/-! Calls, jumps and returns (44_call_branch.md, 45_return.md). First what the two shared routines
answer in each of their cases, then the schemas of the conditional forms: an instruction that runs a
routine under a condition has the results of the routine for the condition's relation. -/

namespace Sys2Proof.Machine

open Sys2Proof.Claims

/-! ### Calls are told from jumps by the threshold -/

theorem isCall_of_mem_calls (s : State) (op : Opcode) (hwf : s.cfg.WF) (h : op ∈ Opcode.calls) :
    s.isCall op = true := by
  obtain ⟨-, ⟨hcalls, -⟩, -⟩ := hwf
  exact decide_eq_true (hcalls op h)

theorem isCall_of_mem_jumps (s : State) (op : Opcode) (hwf : s.cfg.WF) (h : op ∈ Opcode.jumps) :
    s.isCall op = false := by
  obtain ⟨-, ⟨-, hjumps⟩, -⟩ := hwf
  exact decide_eq_false (Nat.not_lt.mpr (hjumps op h))

/-- No configuration rejects a call. -/
theorem rejects_of_mem_calls (cfg : Config) (op : Opcode) (h : op ∈ Opcode.calls) :
    cfg.rejects op = false := by
  simp only [Opcode.calls, List.mem_cons, List.not_mem_nil, or_false] at h
  rcases h with rfl | rfl | rfl | rfl | rfl | rfl | rfl <;> rfl

/-! ### The routine of R130 -/

/-- The cursor holds every target. -/
theorem setWidth_target_toNat (target : Addr) :
    (target.setWidth 17 : Cursor).toNat = target.toNat := by
  have := target.isLt
  rw [BitVec.toNat_setWidth]
  omega

/-- A call pushes the low 16 bits of the address of its last byte (D13). -/
theorem returnEntry_eq (op : Opcode) (s : State) :
    returnEntry op s = BitVec.ofNat 16 (s.pc.toNat + op.length - 1) := by
  have hpos := op.length_pos
  have hle : op.length ≤ 5 := op.length_le
  have hone : (1 : Cursor).toNat = 1 := rfl
  apply BitVec.eq_of_toNat_eq
  simp only [returnEntry, hone, BitVec.toNat_setWidth, BitVec.toNat_sub, BitVec.toNat_add,
    BitVec.toNat_ofNat]
  omega

theorem called_push (op : Opcode) (target : Addr) (s : State) (hstack : s.StackOk)
    (hroom : s.sp ≠ s.cfg.stackCap) : Called op.length target s
      ((s.withStack (s.stack.set s.sp (returnEntry op s)) (s.sp + 1)).jumpTo target) := by
  obtain ⟨hlen, hsp⟩ := hstack
  refine ⟨setWidth_target_toNat target, rfl, rfl, ?_, fun k hk => ?_, fun _ => rfl, fun _ => rfl,
    rfl, rfl, rfl, rfl⟩
  · rw [← returnEntry_eq]
    exact List.getElem?_set_self (by omega)
  · exact List.getElem?_set_ne (Ne.symm hk)

theorem transfer_called (op : Opcode) (target : Addr) (s : State) (hcall : s.isCall op = true)
    (hstack : s.StackOk) (hroom : s.sp < s.cfg.stackCap) :
    ∃ t, transfer op true target s = .next t ∧ Called op.length target s t :=
  ⟨_, (transfer_eq_next op true target s _).mpr (.inr (.inr (.inl ⟨rfl, hcall, hroom.ne, rfl⟩))),
    called_push op target s hstack hroom.ne⟩

theorem transfer_full (op : Opcode) (target : Addr) (s : State) (hcall : s.isCall op = true)
    (hfull : s.sp = s.cfg.stackCap) :
    ∃ t, transfer op true target s = .next t ∧ FaultedWith .stackOutOfBounds s t :=
  ⟨_, (transfer_eq_next op true target s _).mpr (.inr (.inr (.inr ⟨rfl, hcall, hfull, rfl⟩))), rfl⟩

theorem transfer_jumped (op : Opcode) (target : Addr) (s : State) (hjump : s.isCall op = false) :
    ∃ t, transfer op true target s = .next t ∧ Jumped target s t := by
  refine ⟨_, (transfer_eq_next op true target s _).mpr (.inr (.inl ⟨rfl, hjump, rfl⟩)), ?_⟩
  exact ⟨setWidth_target_toNat target, rfl, fun _ => rfl, fun _ => rfl, ⟨rfl, rfl⟩, rfl, rfl, rfl,
    rfl⟩

theorem transfer_fallsThrough (op : Opcode) (target : Addr) (s : State) :
    ∃ t, transfer op false target s = .next t ∧ FallsThrough op.length s t :=
  ⟨_, rfl, fallsThrough_retire op s⟩

/-! ### The routine of R155 -/

theorem returnWhen_returned (op : Opcode) (s : State) (e : Addr) (hsp : s.sp ≠ 0)
    (he : s.stack[s.sp - 1]? = some e) :
    ∃ t, returnWhen op true s = .next t ∧ Returned e s t := by
  refine ⟨_, (returnWhen_eq_next op true s _).mpr (.inr (.inl ⟨rfl, hsp, rfl⟩)), ?_⟩
  refine ⟨?_, rfl, Nat.sub_add_cancel (Nat.pos_of_ne_zero hsp), rfl, fun _ => rfl, fun _ => rfl,
    rfl, rfl, rfl, rfl⟩
  have hlt := e.isLt
  have hone : (1 : Cursor).toNat = 1 := rfl
  simp only [State.pc_deliver, State.pc_withPc, List.getD_eq_getElem?_getD, he, Option.getD_some,
    BitVec.toNat_add, BitVec.toNat_setWidth, hone]
  omega

theorem returnWhen_empty (op : Opcode) (s : State) (hsp : s.sp = 0) :
    ∃ t, returnWhen op true s = .next t ∧ FaultedWith .stackOutOfBounds s t :=
  ⟨_, (returnWhen_eq_next op true s _).mpr (.inr (.inr ⟨rfl, hsp, rfl⟩)), rfl⟩

theorem returnWhen_fallsThrough (op : Opcode) (s : State) :
    ∃ t, returnWhen op false s = .next t ∧ FallsThrough op.length s t :=
  ⟨_, rfl, fallsThrough_retire op s⟩

theorem returnIf_of_implemented (op : Opcode) (cc : Cond) (a b : Byte) (s : State)
    (h : s.cfg.condReturn = .implemented) :
    returnIf op cc a b s = returnWhen op (cc.holds (s.reg a) (s.reg b)) s := by
  rw [returnIf_eq, h]

theorem returnIf_of_rejected (op : Opcode) (cc : Cond) (a b : Byte) (s : State)
    (h : s.cfg.condReturn = .rejected) : returnIf op cc a b s = raise .invalidInstruction s := by
  rw [returnIf_eq, h]

/-! ### Conditions as relations -/

/-- The condition tests the relation on unsigned values (R131). -/
def Cond.Tests (cc : Cond) (rel : Nat → Nat → Prop) : Prop :=
  ∀ va vb, cc.holds va vb = true ↔ rel va.toNat vb.toNat

theorem Cond.Tests.holds_eq_false {cc : Cond} {rel : Nat → Nat → Prop} (h : cc.Tests rel)
    {va vb : Byte} (hrel : ¬ rel va.toNat vb.toNat) : cc.holds va vb = false :=
  Bool.eq_false_iff.mpr fun hcc => hrel ((h va vb).mp hcc)

/-! ### The schemas -/

theorem decode_rrl (mk : Byte → Byte → Addr → Instr) (op : Opcode)
    (hread : decodeOperands op = readRRL mk) (cfg : Config) (hwf : cfg.WF)
    (himpl : cfg.rejects op = false) (a b hi lo : Byte) (rest : List Byte) :
    decode cfg (cfg.opcodes.code op :: a :: b :: hi :: lo :: rest) =
      .instr (mk a b (BitVec.ofNat 16 (hi.toNat * 256 + lo.toNat))) rest := by
  obtain ⟨hdistinct, -⟩ := hwf
  rw [decode_code cfg hdistinct op _ himpl, hread, readRRL, wordOf]

section Schemas

variable {op : Opcode} {cc : Cond} {rel : Nat → Nat → Prop}

theorem conditionalCall_of_exec {mk : Byte → Byte → Addr → Instr} (hlen : op.length = 5)
    (hread : decodeOperands op = readRRL mk) (hcalls : op ∈ Opcode.calls)
    (hexec : ∀ a b g s, exec (mk a b g) s = transferIf op cc a b g s) (htests : cc.Tests rel) :
    ConditionalCall mk op rel := by
  refine ⟨fun cfg a b hi lo rest hwf => ?_, fun s a b g hwf hstack hrel hroom => ?_,
    fun s a b g hrel => ?_⟩
  · exact decode_rrl mk op hread cfg hwf (rejects_of_mem_calls cfg op hcalls) a b hi lo rest
  · rw [hexec, transferIf, (htests _ _).mpr hrel, ← hlen]
    exact transfer_called op g s (isCall_of_mem_calls s op hwf hcalls) hstack hroom
  · rw [hexec, transferIf, htests.holds_eq_false hrel, ← hlen]
    exact transfer_fallsThrough op g s

theorem callOnFullStack_of_exec {mk : Byte → Byte → Addr → Instr}
    (hcalls : op ∈ Opcode.calls)
    (hexec : ∀ a b g s, exec (mk a b g) s = transferIf op cc a b g s) (htests : cc.Tests rel) :
    ConditionalCallOnFullStack mk rel := by
  intro s a b g hwf hrel hfull
  rw [hexec, transferIf, (htests _ _).mpr hrel]
  exact transfer_full op g s (isCall_of_mem_calls s op hwf hcalls) hfull

theorem conditionalJump_of_exec {mk : Byte → Byte → Addr → Instr} (hlen : op.length = 5)
    (hread : decodeOperands op = readRRL mk) (hjumps : op ∈ Opcode.jumps)
    (hexec : ∀ a b g s, Implemented s.cfg (mk a b g).opcode →
      exec (mk a b g) s = transferIf op cc a b g s)
    (htests : cc.Tests rel) : ConditionalJump mk op rel := by
  refine ⟨fun cfg a b hi lo rest hwf himpl => ?_, fun s a b g hwf himpl => ⟨fun hrel => ?_,
    fun hrel => ?_⟩⟩
  · exact decode_rrl mk op hread cfg hwf ((implemented_iff cfg op).mp himpl) a b hi lo rest
  · rw [hexec a b g s himpl, transferIf, (htests _ _).mpr hrel]
    exact transfer_jumped op g s (isCall_of_mem_jumps s op hwf hjumps)
  · rw [hexec a b g s himpl, transferIf, htests.holds_eq_false hrel, ← hlen]
    exact transfer_fallsThrough op g s

theorem conditionalReturn_of_exec {mk : Byte → Byte → Instr} (hlen : op.length = 3)
    (hread : decodeOperands op = readTwo mk)
    (hexec : ∀ a b s, exec (mk a b) s = returnIf op cc a b s) (htests : cc.Tests rel) :
    ConditionalReturn mk op rel := by
  refine ⟨fun cfg a b rest ⟨hdistinct, _⟩ himpl => ?_, fun s a b e himpl hrel hsp he => ?_,
    fun s a b himpl hrel => ?_⟩
  · rw [decode_code cfg hdistinct op _ ((implemented_iff cfg op).mp himpl), hread, readTwo]
  · rw [hexec, returnIf_of_implemented op cc a b s himpl, (htests _ _).mpr hrel]
    exact returnWhen_returned op s e hsp he
  · rw [hexec, returnIf_of_implemented op cc a b s himpl, htests.holds_eq_false hrel, ← hlen]
    exact returnWhen_fallsThrough op s

theorem returnOnEmptyStack_of_exec {mk : Byte → Byte → Instr}
    (hexec : ∀ a b s, exec (mk a b) s = returnIf op cc a b s) (htests : cc.Tests rel) :
    ConditionalReturnOnEmptyStack mk rel := by
  intro s a b himpl hrel hsp
  rw [hexec, returnIf_of_implemented op cc a b s himpl, (htests _ _).mpr hrel]
  exact returnWhen_empty op s hsp

end Schemas

/-! ### The obligations -/

/-- Settles O42. -/
theorem unconditionalCallResult : Obligations.UnconditionalCallResult :=
  ⟨fun cfg hi lo rest ⟨hdistinct, _⟩ => decode_code cfg hdistinct .psh (hi :: lo :: rest) rfl,
    fun s g hwf hstack hroom =>
      transfer_called .psh g s (isCall_of_mem_calls s .psh hwf (by decide)) hstack hroom⟩

/-- Settles O43: the six calls run `transferIf`, each with its own condition. -/
theorem conditionalCallsResult : Obligations.ConditionalCallsResult :=
  ⟨conditionalCall_of_exec rfl rfl (by decide) (fun _ _ _ _ => rfl) Cond.eq_holds_iff,
    conditionalCall_of_exec rfl rfl (by decide) (fun _ _ _ _ => rfl) Cond.nq_holds_iff,
    conditionalCall_of_exec rfl rfl (by decide) (fun _ _ _ _ => rfl) Cond.gt_holds_iff,
    conditionalCall_of_exec rfl rfl (by decide) (fun _ _ _ _ => rfl) Cond.lt_holds_iff,
    conditionalCall_of_exec rfl rfl (by decide) (fun _ _ _ _ => rfl) Cond.ge_holds_iff,
    conditionalCall_of_exec rfl rfl (by decide) (fun _ _ _ _ => rfl) Cond.le_holds_iff⟩

/-- Settles O44. -/
theorem fullStackCallFaults : Obligations.FullStackCallFaults :=
  ⟨fun s g hwf hfull => transfer_full .psh g s (isCall_of_mem_calls s .psh hwf (by decide)) hfull,
    callOnFullStack_of_exec (op := .teq) (by decide) (fun _ _ _ _ => rfl) Cond.eq_holds_iff,
    callOnFullStack_of_exec (op := .tnq) (by decide) (fun _ _ _ _ => rfl) Cond.nq_holds_iff,
    callOnFullStack_of_exec (op := .tgt) (by decide) (fun _ _ _ _ => rfl) Cond.gt_holds_iff,
    callOnFullStack_of_exec (op := .tlt) (by decide) (fun _ _ _ _ => rfl) Cond.lt_holds_iff,
    callOnFullStack_of_exec (op := .tge) (by decide) (fun _ _ _ _ => rfl) Cond.ge_holds_iff,
    callOnFullStack_of_exec (op := .tle) (by decide) (fun _ _ _ _ => rfl) Cond.le_holds_iff⟩

/-- Settles O45: the jump opcode is at or above the threshold, so nothing is pushed. -/
theorem unconditionalJumpResult : Obligations.UnconditionalJumpResult :=
  ⟨fun cfg hi lo rest ⟨hdistinct, _⟩ => decode_code cfg hdistinct .jmp (hi :: lo :: rest) rfl,
    fun s g hwf => transfer_jumped .jmp g s (isCall_of_mem_jumps s .jmp hwf (by decide))⟩

theorem exec_jle_of_implemented (a b : Byte) (g : Addr) (s : State)
    (himpl : Implemented s.cfg .jle) : exec (.jle a b g) s = transferIf .jle .le a b g s := by
  obtain ⟨hjle, -⟩ := himpl
  simp only [exec, execJle, hjle rfl]

theorem exec_jle_of_rejected (a b : Byte) (g : Addr) (s : State) (h : s.cfg.jle = .rejected) :
    exec (.jle a b g) s = raise .invalidInstruction s := by
  simp only [exec, execJle, h]

/-- Settles O46: the six jumps run `transferIf`, `jle` where the configuration implements it. -/
theorem conditionalJumpsResult : Obligations.ConditionalJumpsResult :=
  ⟨conditionalJump_of_exec rfl rfl (by decide) (fun _ _ _ _ _ => rfl) Cond.eq_holds_iff,
    conditionalJump_of_exec rfl rfl (by decide) (fun _ _ _ _ _ => rfl) Cond.nq_holds_iff,
    conditionalJump_of_exec rfl rfl (by decide) (fun _ _ _ _ _ => rfl) Cond.gt_holds_iff,
    conditionalJump_of_exec rfl rfl (by decide) (fun _ _ _ _ _ => rfl) Cond.lt_holds_iff,
    conditionalJump_of_exec rfl rfl (by decide) (fun _ _ _ _ _ => rfl) Cond.ge_holds_iff,
    conditionalJump_of_exec rfl rfl (by decide) exec_jle_of_implemented Cond.le_holds_iff⟩

/-- Settles O48: `pop` runs the routine as taken, the conditional returns under their conditions. -/
theorem returnsResult : Obligations.ReturnsResult :=
  ⟨⟨fun cfg rest ⟨hdistinct, _⟩ => decode_code cfg hdistinct .pop rest rfl,
      returnWhen_returned .pop⟩,
    conditionalReturn_of_exec rfl rfl (fun _ _ _ => rfl) Cond.eq_holds_iff,
    conditionalReturn_of_exec rfl rfl (fun _ _ _ => rfl) Cond.nq_holds_iff,
    conditionalReturn_of_exec rfl rfl (fun _ _ _ => rfl) Cond.gt_holds_iff,
    conditionalReturn_of_exec rfl rfl (fun _ _ _ => rfl) Cond.lt_holds_iff,
    conditionalReturn_of_exec rfl rfl (fun _ _ _ => rfl) Cond.ge_holds_iff,
    conditionalReturn_of_exec rfl rfl (fun _ _ _ => rfl) Cond.le_holds_iff⟩

/-- Settles O49. -/
theorem emptyStackReturnFaults : Obligations.EmptyStackReturnFaults :=
  ⟨returnWhen_empty .pop,
    returnOnEmptyStack_of_exec (fun _ _ _ => rfl) Cond.eq_holds_iff,
    returnOnEmptyStack_of_exec (fun _ _ _ => rfl) Cond.nq_holds_iff,
    returnOnEmptyStack_of_exec (fun _ _ _ => rfl) Cond.gt_holds_iff,
    returnOnEmptyStack_of_exec (fun _ _ _ => rfl) Cond.lt_holds_iff,
    returnOnEmptyStack_of_exec (fun _ _ _ => rfl) Cond.ge_holds_iff,
    returnOnEmptyStack_of_exec (fun _ _ _ => rfl) Cond.le_holds_iff⟩

/-- Settles O47, by the arm of each instruction. -/
theorem rejectedOpcodesFault : Obligations.RejectedOpcodesFault := by
  refine ⟨fun s a b g hjle => ⟨_, exec_jle_of_rejected a b g s hjle, rfl⟩,
    fun s a b i hret hi => ⟨_, ?_, rfl⟩⟩
  simp only [List.mem_cons, List.not_mem_nil, or_false] at hi
  rcases hi with rfl | rfl | rfl | rfl | rfl | rfl
  · exact returnIf_of_rejected .peq .eq a b s hret
  · exact returnIf_of_rejected .pnq .nq a b s hret
  · exact returnIf_of_rejected .pgt .gt a b s hret
  · exact returnIf_of_rejected .plt .lt a b s hret
  · exact returnIf_of_rejected .pge .ge a b s hret
  · exact returnIf_of_rejected .ple .le a b s hret

/-- A call opcode whose instruction raised the count pushed an entry. -/
theorem stack_of_called (i : Instr) (s t : State) (hstack : s.StackOk)
    (h : exec i s = .next t) (hsp : t.sp = s.sp + 1) :
    t.stack[s.sp]? = some (BitVec.ofNat 16 (s.pc.toNat + i.opcode.length - 1)) := by
  cases exec_cases i s t h with
  | called g _ _ hroom =>
    obtain ⟨-, -, -, hentry, -⟩ := called_push i.opcode g s hstack hroom
    exact hentry
  | fellThrough | nextFrame | halted | wroteRegister | wroteMemory | jumped | returned | ignore
  | unignore | faulted => simp at hsp

/-- Settles O50: the entry is the address of the call's last byte, and 16 bits hold it. -/
theorem callThenReturnResumes : Obligations.CallThenReturnResumes := by
  intro i s t u hstack _ hlen ht hsp hustack husp
  have hentry := stack_of_called i s t hstack ht hsp
  have hidx : u.sp - 1 = s.sp := by omega
  obtain ⟨v, hv, hpc, -, hvsp, -⟩ :=
    returnWhen_returned .pop u _ (by omega) (by rw [hustack, hidx]; exact hentry)
  have hpos := i.opcode.length_pos
  rw [BitVec.toNat_ofNat] at hpc
  exact ⟨v, hv, by omega, by omega⟩

end Sys2Proof.Machine
end

section
/-! What an instruction leaves unchanged (20_memory.md R36, 40_step_dispatch.md R78), and which
instructions move the call stack (10_state.md R20): read off the ways an instruction can complete
(`exec_cases`), one piece of state at a time. -/

namespace Sys2Proof.Machine

open Sys2Proof.Claims

/-- A transfer that pushes has a call opcode. -/
theorem mem_calls_of_isCall (s : State) (op : Opcode) (hwf : s.cfg.WF)
    (hop : op ∈ Opcode.calls ++ Opcode.jumps) (hcall : s.isCall op = true) : op ∈ Opcode.calls := by
  rcases List.mem_append.mp hop with hcalls | hjumps
  · exact hcalls
  · rw [isCall_of_mem_jumps s op hwf hjumps] at hcall
    cases hcall

variable {i : Instr} {s t : State}

theorem exec_keeps_other_regs (h : exec i s = .next t) (r : Fin 8)
    (hr : ∀ d, destinationRegister i = some d → r ≠ regIndex d) :
    t.regs.get r = s.regs.get r := by
  cases exec_cases i s t h with
  | wroteRegister d v hd => simp [hr d hd]
  | fellThrough | nextFrame | halted | wroteMemory | jumped | called | returned | ignore | unignore
  | faulted => rfl

theorem exec_keeps_other_mem (hwf : s.mem.wf = true) (h : exec i s = .next t) (a : Addr)
    (ha : storeAddress i ≠ some a) : t.mem.read a = s.mem.read a := by
  cases exec_cases i s t h with
  | wroteMemory b v hb =>
    have hab : a ≠ b := fun hab => ha (hab ▸ hb)
    simp [Memory.read_write _ _ _ _ hwf, hab]
  | fellThrough | nextFrame | halted | wroteRegister | jumped | called | returned | ignore
  | unignore | faulted => rfl

theorem exec_keeps_stack_of_not_call (hwf : s.cfg.WF) (h : exec i s = .next t)
    (hi : i.opcode ∉ Opcode.calls) : t.stack = s.stack := by
  cases exec_cases i s t h with
  | called g hop hcall => exact absurd (mem_calls_of_isCall s _ hwf hop hcall) hi
  | fellThrough | nextFrame | halted | wroteRegister | wroteMemory | jumped | returned | ignore
  | unignore | faulted => rfl

/-- A call writes the slot at the count, and no instruction writes another. -/
theorem exec_keeps_other_slots (h : exec i s = .next t) (k : Nat) (hk : k ≠ s.sp) :
    t.stack[k]? = s.stack[k]? := by
  cases exec_cases i s t h with
  | called => exact List.getElem?_set_ne (Ne.symm hk)
  | fellThrough | nextFrame | halted | wroteRegister | wroteMemory | jumped | returned | ignore
  | unignore | faulted => rfl

theorem exec_keeps_ignoring (h : exec i s = .next t) (hi : i ≠ .opIgnore) (hu : i ≠ .opUnignore) :
    t.ignoring = s.ignoring := by
  cases exec_cases i s t h with
  | ignore hi' => exact absurd hi' hi
  | unignore hu' => exact absurd hu' hu
  | fellThrough | nextFrame | halted | wroteRegister | wroteMemory | jumped | called | returned
  | faulted => rfl

theorem exec_halt_cases (h : exec i s = .next t) :
    t.halt = s.halt ∨ i = .hlt ∨ ∃ st, t.status = some st ∧ st.isFault = true := by
  cases exec_cases i s t h with
  | halted hi => exact .inr (.inl hi)
  | faulted st hst => exact .inr (.inr ⟨st, rfl, by rcases hst with rfl | rfl | rfl <;> rfl⟩)
  | fellThrough | nextFrame | wroteRegister | wroteMemory | jumped | called | returned | ignore
  | unignore => exact .inl rfl

/-- Settles O24, one piece of state at a time. -/
theorem instructionFrame : Obligations.InstructionFrame := fun i s t hwf hmem h =>
  ⟨exec_keeps_other_regs h, exec_keeps_other_mem hmem h, exec_keeps_stack_of_not_call hwf h,
    exec_keeps_other_slots h, exec_keeps_ignoring h, exec_halt_cases h,
    exec_keeps_rom_cfg i s t h⟩

/-- Settles O25: the two ways to complete that write the call stack. -/
theorem onlyCallsAndReturnsMoveStack : Obligations.OnlyCallsAndReturnsMoveStack := by
  intro i s t hwf h hmoved
  cases exec_cases i s t h with
  | called g hop hcall => exact .inl ⟨mem_calls_of_isCall s _ hwf hop hcall, rfl⟩
  | returned hop hsp => exact .inr ⟨hop, Nat.sub_add_cancel (Nat.pos_of_ne_zero hsp), rfl⟩
  | fellThrough | nextFrame | halted | wroteRegister | wroteMemory | jumped | ignore | unignore
  | faulted => exact absurd ⟨rfl, rfl⟩ hmoved

end Sys2Proof.Machine
end

section
/-! The status of a step (40_step_dispatch.md R77, 60_exceptions.md R183). `StatusCause` writes down the
cause that the table of R77 gives each status; a step has the cause of the status it delivers, and a
state with a cause steps with that status, so the two agree. -/

namespace Sys2Proof.Machine

open Sys2Proof.Claims

/-! ### Faults change only HALT -/

theorem exec_of_fault (i : Instr) (s t : State) (st : Status) (h : exec i s = .next t)
    (hst : t.status = some st) (hfault : st.isFault = true) : FaultedWith st s t := by
  cases exec_cases i s t h with
  | faulted st' => cases hst; rfl
  | fellThrough | nextFrame | halted | wroteRegister | wroteMemory | jumped | called | returned
  | ignore | unignore => cases hst; cases hfault

/-- Settles O17: the fault is taken from the state at the start of the step, in each case that delivers
one. -/
theorem faultChangesOnlyHalt : Obligations.FaultChangesOnlyHalt := by
  intro s t st h hst hfault
  obtain ⟨-, hcase⟩ := step_cases s t h
  cases hcase with
  | halted | scanned => cases hst; cases hfault
  | pastRom | invalid | truncated => cases hst; rfl
  | dispatched i _ _ hexec => exact exec_of_fault i s t st hexec hst hfault

theorem status_of_faultedWith {st : Status} {s t : State} (h : FaultedWith st s t) :
    t.status = some st := by
  cases h
  rfl

theorem halt_of_faultedWith {st : Status} {s t : State} (h : FaultedWith st s t) :
    t.halt = true := by
  cases h
  rfl

/-- Settles O19: it is none of the statuses that a step delivers. -/
theorem memoryOutOfBoundsNeverDelivered : Obligations.MemoryOutOfBoundsNeverDelivered := by
  intro s t h hst
  cases step_delivery s t h with
  | goesOn hc => rw [hst] at hc; cases hc
  | endsFrame _ ht => subst ht; cases hst
  | stops st hmem hs =>
    rw [hst] at hs
    cases hs
    simp at hmem

/-! ### The flags -/

/-- Settles O21: the cases of a step that set `HALT`, and that none clears it. -/
theorem haltIsSetOnlyByHltOrFault : Obligations.HaltIsSetOnlyByHltOrFault := by
  intro s t h
  obtain ⟨hrom, hcase⟩ := step_cases s t h
  constructor
  · intro ht
    cases hcase with
    | halted hs => exact .inl hs
    | pastRom | invalid | truncated => exact .inr (.inr ⟨_, rfl, rfl⟩)
    | scanned _ hr => exact absurd ht (by simp [hr])
    | dispatched i _ hd hexec =>
      rcases exec_halt_cases hexec with hkept | rfl | hfault
      · exact absurd ht (by simp [hkept, hd.halt_eq_false])
      · exact .inr (.inl hd)
      · exact .inr (.inr hfault)
  · rintro (hs | hd | ⟨st, hst, hfault⟩)
    · cases h.symm.trans (step_of_halt s hrom hs)
      exact hs
    · cases h.symm.trans (step_of_dispatches s .hlt hrom hd)
      rfl
    · exact halt_of_faultedWith (faultChangesOnlyHalt s t st h hst hfault)

/-- In normal mode an instruction that leads to ignore mode is `OP_IGNORE`. -/
theorem eq_opIgnore_of_exec (i : Instr) (s t : State) (hi : s.ignoring = false)
    (h : exec i s = .next t) (ht : t.ignoring = true) : i = .opIgnore := by
  cases exec_cases i s t h with
  | ignore hop => exact hop
  | unignore => cases ht
  | fellThrough | nextFrame | halted | wroteRegister | wroteMemory | jumped | called | returned
  | faulted => simp [hi] at ht

/-- Settles O22: in normal mode only a dispatched instruction, in ignore mode only a scanned byte,
changes the mode. -/
theorem ignoringChangesOnlyAtSentinels : Obligations.IgnoringChangesOnlyAtSentinels := by
  intro s t h
  obtain ⟨hrom, hcase⟩ := step_cases s t h
  refine ⟨fun hnormal => ⟨fun ht => ?_, fun hd => ?_⟩, fun hign => ?_⟩
  · cases hcase with
    | halted | pastRom | invalid | truncated => simp [hnormal] at ht
    | scanned _ _ hi => simp [hnormal] at hi
    | dispatched i _ hd hexec => exact eq_opIgnore_of_exec i s t hnormal hexec ht ▸ hd
  · cases h.symm.trans (step_of_dispatches s .opIgnore hrom hd)
    rfl
  · cases hcase with
    | halted hs => simp [hs, hign]
    | pastRom _ hpc => simp [hign, List.getElem?_eq_none hpc]
    | scanned b hr _ hb => simp [hr, hb]
    | dispatched _ _ hd => simp [hd.ignoring_eq_false] at hign
    | invalid _ _ hi | truncated _ hi => simp [hi] at hign

/-! ### Calls and returns whose condition holds -/

/-- The instruction is a call whose condition holds. -/
def State.TakesCall (s : State) : Instr → Prop
  | .psh _ => True
  | .teq a b _ => Cond.eq.holds (s.reg a) (s.reg b) = true
  | .tnq a b _ => Cond.nq.holds (s.reg a) (s.reg b) = true
  | .tgt a b _ => Cond.gt.holds (s.reg a) (s.reg b) = true
  | .tlt a b _ => Cond.lt.holds (s.reg a) (s.reg b) = true
  | .tge a b _ => Cond.ge.holds (s.reg a) (s.reg b) = true
  | .tle a b _ => Cond.le.holds (s.reg a) (s.reg b) = true
  | _ => False

/-- The instruction is a return whose condition holds. -/
def State.TakesReturn (s : State) : Instr → Prop
  | .pop => True
  | .peq a b => Cond.eq.holds (s.reg a) (s.reg b) = true
  | .pnq a b => Cond.nq.holds (s.reg a) (s.reg b) = true
  | .pgt a b => Cond.gt.holds (s.reg a) (s.reg b) = true
  | .plt a b => Cond.lt.holds (s.reg a) (s.reg b) = true
  | .pge a b => Cond.ge.holds (s.reg a) (s.reg b) = true
  | .ple a b => Cond.le.holds (s.reg a) (s.reg b) = true
  | _ => False

theorem dispatchesTakenCall_iff (s : State) :
    DispatchesTakenCall s ↔ ∃ i, Dispatches s i ∧ s.TakesCall i := by
  constructor
  · rintro (⟨g, hd⟩ | ⟨a, b, g, h⟩)
    · exact ⟨_, hd, trivial⟩
    · rcases h with ⟨hd, h⟩ | ⟨hd, h⟩ | ⟨hd, h⟩ | ⟨hd, h⟩ | ⟨hd, h⟩ | ⟨hd, h⟩
      · exact ⟨_, hd, (Cond.eq_holds_iff _ _).mpr h⟩
      · exact ⟨_, hd, (Cond.nq_holds_iff _ _).mpr h⟩
      · exact ⟨_, hd, (Cond.gt_holds_iff _ _).mpr h⟩
      · exact ⟨_, hd, (Cond.lt_holds_iff _ _).mpr h⟩
      · exact ⟨_, hd, (Cond.ge_holds_iff _ _).mpr h⟩
      · exact ⟨_, hd, (Cond.le_holds_iff _ _).mpr h⟩
  · rintro ⟨i, hd, h⟩
    cases i with
    | psh g => exact .inl ⟨g, hd⟩
    | teq a b g | tnq a b g | tgt a b g | tlt a b g | tge a b g | tle a b g =>
      refine .inr ⟨a, b, g, ?_⟩
      simp only [State.TakesCall, Cond.eq_holds_iff, Cond.nq_holds_iff, Cond.gt_holds_iff,
        Cond.lt_holds_iff, Cond.ge_holds_iff, Cond.le_holds_iff] at h
      tauto
    | _ => exact False.elim h

theorem dispatchesTakenReturn_iff (s : State) :
    DispatchesTakenReturn s ↔ ∃ i, Dispatches s i ∧ s.TakesReturn i := by
  constructor
  · rintro (hd | ⟨a, b, h⟩)
    · exact ⟨_, hd, trivial⟩
    · rcases h with ⟨hd, h⟩ | ⟨hd, h⟩ | ⟨hd, h⟩ | ⟨hd, h⟩ | ⟨hd, h⟩ | ⟨hd, h⟩
      · exact ⟨_, hd, (Cond.eq_holds_iff _ _).mpr h⟩
      · exact ⟨_, hd, (Cond.nq_holds_iff _ _).mpr h⟩
      · exact ⟨_, hd, (Cond.gt_holds_iff _ _).mpr h⟩
      · exact ⟨_, hd, (Cond.lt_holds_iff _ _).mpr h⟩
      · exact ⟨_, hd, (Cond.ge_holds_iff _ _).mpr h⟩
      · exact ⟨_, hd, (Cond.le_holds_iff _ _).mpr h⟩
  · rintro ⟨i, hd, h⟩
    cases i with
    | pop => exact .inl hd
    | peq a b | pnq a b | pgt a b | plt a b | pge a b | ple a b =>
      refine .inr ⟨a, b, ?_⟩
      simp only [State.TakesReturn, Cond.eq_holds_iff, Cond.nq_holds_iff, Cond.gt_holds_iff,
        Cond.lt_holds_iff, Cond.ge_holds_iff, Cond.le_holds_iff] at h
      tauto
    | _ => exact False.elim h

theorem transferIf_of_holds {op : Opcode} {cc : Cond} {a b : Byte} {s : State} (g : Addr)
    (h : cc.holds (s.reg a) (s.reg b) = true) :
    transferIf op cc a b g s = transfer op true g s := by
  rw [transferIf, h]

/-- A call whose condition holds runs the routine of R130 as taken. -/
theorem exec_of_takesCall (i : Instr) (s : State) (h : s.TakesCall i) :
    i.opcode ∈ Opcode.calls ∧ ∃ g, exec i s = transfer i.opcode true g s := by
  cases i with
  | psh g => exact ⟨List.mem_cons_self, g, rfl⟩
  | teq _ _ g | tnq _ _ g | tgt _ _ g | tlt _ _ g | tge _ _ g | tle _ _ g =>
    exact ⟨by simp [Instr.opcode, Opcode.calls], g, transferIf_of_holds g h⟩
  | _ => exact False.elim h

/-- A return that the configuration admits and whose condition holds runs the routine of R155 as
taken. -/
theorem exec_of_takesReturn (i : Instr) (s : State) (hi : i.wellFormed s.cfg = true)
    (h : s.TakesReturn i) : exec i s = returnWhen i.opcode true s := by
  cases i with
  | pop => rfl
  | peq a b | pnq a b | pgt a b | plt a b | pge a b | ple a b =>
    exact (returnIf_of_implemented _ _ a b s (of_decide_eq_true hi)).trans
      (congrArg (returnWhen _ · s) h)
  | _ => exact False.elim h

/-! ### Why an instruction faults -/

/-- The causes of a fault of the instruction `i`. -/
inductive FaultCause (i : Instr) (s : State) : Status → Prop
  /-- the end sentinel in normal mode -/
  | sentinel (hi : i = .opUnignore) : FaultCause i s .invalidInstruction
  /-- an instruction that the configuration rejects -/
  | rejected (hi : i.wellFormed s.cfg = false) : FaultCause i s .invalidInstruction
  /-- a call taken on a full stack -/
  | fullStack (hi : s.TakesCall i) (hsp : s.sp = s.cfg.stackCap) : FaultCause i s .stackOutOfBounds
  /-- a return taken on an empty stack -/
  | emptyStack (hi : s.TakesReturn i) (hsp : s.sp = 0) : FaultCause i s .stackOutOfBounds
  /-- a zero divisor under the policy `fault` -/
  | zeroDivisor (a b d : Byte) (hi : i = .div a b d ∨ i = .mod a b d)
      (hpolicy : s.cfg.divZero = .fault) (hb : (s.reg b).toNat = 0) : FaultCause i s .divideByZero

theorem fault_of_transfer {op : Opcode} {taken : Bool} {g : Addr} {s t : State} {st : Status}
    (h : transfer op taken g s = .next t) (hst : t.status = some st) (hfault : st.isFault = true) :
    taken = true ∧ s.isCall op = true ∧ s.sp = s.cfg.stackCap ∧ st = .stackOutOfBounds := by
  rcases (transfer_eq_next _ _ _ _ _).mp h with
    ⟨-, rfl⟩ | ⟨-, -, rfl⟩ | ⟨-, -, -, rfl⟩ | ⟨htaken, hcall, hsp, rfl⟩
  · cases hst; cases hfault
  · cases hst; cases hfault
  · cases hst; cases hfault
  · cases hst; exact ⟨htaken, hcall, hsp, rfl⟩

theorem not_fault_of_jump {op : Opcode} {taken : Bool} {g : Addr} {s t : State} {st : Status}
    (hwf : s.cfg.WF) (hop : op ∈ Opcode.jumps) (h : transfer op taken g s = .next t)
    (hst : t.status = some st) : ¬ st.isFault = true := by
  intro hfault
  obtain ⟨-, hcall, -⟩ := fault_of_transfer h hst hfault
  rw [isCall_of_mem_jumps s op hwf hop] at hcall
  cases hcall

theorem fault_of_returnWhen {op : Opcode} {taken : Bool} {s t : State} {st : Status}
    (h : returnWhen op taken s = .next t) (hst : t.status = some st) (hfault : st.isFault = true) :
    taken = true ∧ s.sp = 0 ∧ st = .stackOutOfBounds := by
  rcases (returnWhen_eq_next _ _ _ _).mp h with ⟨-, rfl⟩ | ⟨-, -, rfl⟩ | ⟨htaken, hsp, rfl⟩
  · cases hst; cases hfault
  · cases hst; cases hfault
  · cases hst; exact ⟨htaken, hsp, rfl⟩

theorem fault_of_returnIf {op : Opcode} {cc : Cond} {a b : Byte} {s t : State} {st : Status}
    (h : returnIf op cc a b s = .next t) (hst : t.status = some st) (hfault : st.isFault = true) :
    (s.cfg.condReturn = .rejected ∧ st = .invalidInstruction) ∨
      (cc.holds (s.reg a) (s.reg b) = true ∧ s.sp = 0 ∧ st = .stackOutOfBounds) := by
  cases hret : s.cfg.condReturn with
  | implemented =>
    rw [returnIf_of_implemented op cc a b s hret] at h
    exact .inr (fault_of_returnWhen h hst hfault)
  | rejected =>
    rw [returnIf_of_rejected op cc a b s hret] at h
    cases h
    cases hst
    exact .inl ⟨rfl, rfl⟩

theorem fault_of_threeRegMayRaise {op : Opcode} {f : Byte → Byte → Except Status Byte}
    {a b d : Byte} {s t : State} {st : Status} (h : threeRegMayRaise op f a b d s = .next t)
    (hst : t.status = some st) (hfault : st.isFault = true) : f (s.reg a) (s.reg b) = .error st := by
  rcases (threeRegMayRaise_eq_next _ _ _ _ _ _ _).mp h with ⟨v, -, rfl⟩ | ⟨st', hf, rfl⟩
  · cases hst; cases hfault
  · cases hst; exact hf

theorem aluDiv_eq_error (p : DivZeroPolicy) (va vb : Byte) (st : Status)
    (h : aluDiv p va vb = .error st) : p = .fault ∧ vb = 0#8 ∧ st = .divideByZero := by
  by_cases hb : vb = 0#8
  · subst hb
    cases p with
    | fault => cases h; exact ⟨rfl, rfl, rfl⟩
    | value => cases h
  · rw [aluDiv_nonzero p va vb hb] at h
    cases h

theorem aluMod_eq_error (p : DivZeroPolicy) (va vb : Byte) (st : Status)
    (h : aluMod p va vb = .error st) : p = .fault ∧ vb = 0#8 ∧ st = .divideByZero := by
  by_cases hb : vb = 0#8
  · subst hb
    cases p with
    | fault => cases h; exact ⟨rfl, rfl, rfl⟩
    | value => cases h
  · rw [aluMod_nonzero p va vb hb] at h
    cases h

/-- The fault of an instruction has one of the causes of `FaultCause`; the case split follows the
routines that the instructions run. -/
theorem exec_faultCause (i : Instr) (s t : State) (st : Status) (hwf : s.cfg.WF)
    (h : exec i s = .next t) (hst : t.status = some st) (hfault : st.isFault = true) :
    FaultCause i s st := by
  cases i with
  | nop | nxt | hlt | srb | srr | not | opIgnore => cases h; cases hst; cases hfault
  | add | sub | mul | xor | and | orr | xnr | nan | nor | bsl | bsr =>
    cases h; cases hst; cases hfault
  | smr addr r => rw [exec_smr] at h; cases h; cases hst; cases hfault
  | smb addr imm => rw [exec_smb] at h; cases h; cases hst; cases hfault
  | srm d addr => rw [exec_srm] at h; cases h; cases hst; cases hfault
  | div a b d =>
    obtain ⟨hp, hb, rfl⟩ := aluDiv_eq_error _ _ _ _ (fault_of_threeRegMayRaise h hst hfault)
    exact .zeroDivisor a b d (.inl rfl) hp (by rw [hb]; rfl)
  | mod a b d =>
    obtain ⟨hp, hb, rfl⟩ := aluMod_eq_error _ _ _ _ (fault_of_threeRegMayRaise h hst hfault)
    exact .zeroDivisor a b d (.inr rfl) hp (by rw [hb]; rfl)
  | psh g =>
    obtain ⟨-, -, hsp, rfl⟩ := fault_of_transfer (op := .psh) (taken := true) h hst hfault
    exact .fullStack trivial hsp
  | teq | tnq | tgt | tlt | tge | tle =>
    obtain ⟨htaken, -, hsp, rfl⟩ := fault_of_transfer h hst hfault
    exact .fullStack htaken hsp
  | jmp g =>
    exact absurd hfault (not_fault_of_jump (op := .jmp) (taken := true) hwf (by decide) h hst)
  | jeq | jnq | jgt | jlt | jge =>
    exact absurd hfault (not_fault_of_jump hwf (by decide) h hst)
  | jle a b g =>
    cases hjle : s.cfg.jle with
    | implemented =>
      rw [exec_jle_of_implemented a b g s (by simp [Implemented, hjle])] at h
      exact absurd hfault (not_fault_of_jump hwf (by decide) h hst)
    | rejected =>
      rw [exec_jle_of_rejected a b g s hjle] at h
      cases h; cases hst
      exact .rejected (by simp [Instr.wellFormed, hjle])
  | pop =>
    obtain ⟨-, hsp, rfl⟩ := fault_of_returnWhen (op := .pop) (taken := true) h hst hfault
    exact .emptyStack trivial hsp
  | peq | pnq | pgt | plt | pge | ple =>
    rcases fault_of_returnIf h hst hfault with ⟨hret, rfl⟩ | ⟨htaken, hsp, rfl⟩
    · exact .rejected (by simp [Instr.wellFormed, hret])
    · exact .emptyStack htaken hsp
  | opUnignore =>
    cases hi : s.ignoring with
    | true =>
      simp only [exec, execOpUnignore, hi, if_true] at h
      cases h; cases hst; cases hfault
    | false =>
      rw [exec_opUnignore_of_not_ignoring s hi] at h
      cases h; cases hst
      exact .sentinel rfl

/-! ### The table of causes -/

/-- The cause that the table of R77 gives each status; `CONTINUE` is what is left. -/
def StatusCause (s : State) : Status → Prop
  | .continue_ => True
  | .nextFrame => Dispatches s .nxt
  | .halted => s.halt = true ∨ Dispatches s .hlt
  | .invalidInstruction => s.halt = false ∧ s.ignoring = false ∧
      ∃ b, s.rom[s.pc.toNat]? = some b ∧ NotExecutable s.cfg b
  | .endOfRom => s.halt = false ∧ (s.rom.length ≤ s.pc.toNat ∨
      (s.ignoring = false ∧ ∃ op, s.rom[s.pc.toNat]? = some (s.cfg.opcodes.code op) ∧
        Implemented s.cfg op ∧ s.rom.length < s.pc.toNat + op.length))
  | .memoryOutOfBounds => False
  | .stackOutOfBounds =>
      (DispatchesTakenCall s ∧ s.sp = s.cfg.stackCap) ∨ (DispatchesTakenReturn s ∧ s.sp = 0)
  | .divideByZero => s.cfg.divZero = .fault ∧ ∃ a b d,
      (Dispatches s (.div a b d) ∨ Dispatches s (.mod a b d)) ∧ (s.reg b).toNat = 0

theorem statusCause_of_faultCause (i : Instr) (s : State) (st : Status) (hd : Dispatches s i)
    (h : FaultCause i s st) : StatusCause s st := by
  cases h with
  | sentinel hi =>
    subst hi
    exact ⟨hd.halt_eq_false, hd.ignoring_eq_false, _, hd.byte_eq, .inr (.inl rfl)⟩
  | rejected hi => simp [hd.wellFormed] at hi
  | fullStack hi hsp => exact .inl ⟨(dispatchesTakenCall_iff s).mpr ⟨i, hd, hi⟩, hsp⟩
  | emptyStack hi hsp => exact .inr ⟨(dispatchesTakenReturn_iff s).mpr ⟨i, hd, hi⟩, hsp⟩
  | zeroDivisor a b d hi hpolicy hb =>
    refine ⟨hpolicy, a, b, d, ?_, hb⟩
    rcases hi with rfl | rfl
    · exact .inl hd
    · exact .inr hd

theorem exec_statusCause (i : Instr) (s t : State) (hwf : s.cfg.WF) (hd : Dispatches s i)
    (h : exec i s = .next t) : ∃ st, t.status = some st ∧ StatusCause s st := by
  cases exec_cases i s t h with
  | nextFrame hi => exact ⟨.nextFrame, rfl, show Dispatches s .nxt from hi ▸ hd⟩
  | halted hi => exact ⟨.halted, rfl, .inr (hi ▸ hd)⟩
  | faulted st hst =>
    have hfault : st.isFault = true := by rcases hst with rfl | rfl | rfl <;> rfl
    exact ⟨st, rfl, statusCause_of_faultCause i s st hd (exec_faultCause i s _ st hwf h rfl hfault)⟩
  | fellThrough | wroteRegister | wroteMemory | jumped | called | returned | ignore | unignore =>
    exact ⟨.continue_, rfl, trivial⟩

/-- A step delivers a status, and has the cause of that status. -/
theorem step_statusCause (s t : State) (hwf : s.cfg.WF) (h : step s = .next t) :
    ∃ st, t.status = some st ∧ StatusCause s st := by
  obtain ⟨-, hcase⟩ := step_cases s t h
  have ⟨hdistinct, _⟩ := hwf
  cases hcase with
  | halted hs => exact ⟨.halted, rfl, .inl hs⟩
  | pastRom hr hpc => exact ⟨.endOfRom, rfl, hr, .inl hpc⟩
  | scanned => exact ⟨.continue_, rfl, trivial⟩
  | dispatched i _ hd hexec => exact exec_statusCause i s t hwf hd hexec
  | invalid b hr hi hb =>
    obtain ⟨bs, hbs, hne⟩ := (decode_eq_invalidOpcode _ _ _).mp hb
    refine ⟨.invalidInstruction, rfl, hr, hi, b, ?_, ?_⟩
    · rw [← List.head?_drop, hbs, List.head?_cons]
    · exact (notExecutable_iff s.cfg hdistinct b).mpr fun op hop => absurd hop (hne op)
  | truncated hr hi hb =>
    refine ⟨.endOfRom, rfl, hr, ?_⟩
    exact ((decode_drop_eq_endOfRom s hdistinct).mp hb).imp_right fun hop => ⟨hi, hop⟩

/-- A state with the cause of a status steps with that status. -/
theorem exists_step_of_statusCause (s : State) (st : Status) (hwf : s.cfg.WF) (hrom : s.RomOk)
    (hne : st ≠ .continue_) (h : StatusCause s st) : ∃ t, step s = .next t ∧ t.status = some st := by
  have fault : (∃ t, step s = .next t ∧ FaultedWith st s t) →
      ∃ t, step s = .next t ∧ t.status = some st :=
    fun ⟨t, ht, hf⟩ => ⟨t, ht, status_of_faultedWith hf⟩
  have run : ∀ i, Dispatches s i → (∃ t, exec i s = .next t ∧ FaultedWith st s t) →
      ∃ t, step s = .next t ∧ t.status = some st :=
    fun i hd ⟨t, ht, hf⟩ => ⟨t, (step_of_dispatches s i hrom hd).trans ht, status_of_faultedWith hf⟩
  cases st with
  | continue_ => exact absurd rfl hne
  | memoryOutOfBounds => exact False.elim h
  | nextFrame => exact ⟨_, step_of_dispatches s .nxt hrom h, rfl⟩
  | halted =>
    rcases h with hs | hd
    · exact ⟨_, step_of_halt s hrom hs, rfl⟩
    · exact ⟨_, step_of_dispatches s .hlt hrom hd, rfl⟩
  | invalidInstruction =>
    obtain ⟨hr, hi, b, hb, hbad⟩ := h
    exact fault (nonExecutableOpcodeFaults s b hwf hrom hr hi hb hbad)
  | endOfRom =>
    obtain ⟨hr, hpc | ⟨hi, op, hb, himpl, hlen⟩⟩ := h
    · exact fault (fetchPastRomFaults s hrom hr hpc)
    · exact fault (truncatedInstructionFaults s op hwf hrom hr hi hb himpl hlen)
  | stackOutOfBounds =>
    rcases h with ⟨hcall, hsp⟩ | ⟨hret, hsp⟩
    · obtain ⟨i, hd, hi⟩ := (dispatchesTakenCall_iff s).mp hcall
      obtain ⟨hop, g, hexec⟩ := exec_of_takesCall i s hi
      exact run i hd (hexec ▸ transfer_full _ g s (isCall_of_mem_calls s _ hwf hop) hsp)
    · obtain ⟨i, hd, hi⟩ := (dispatchesTakenReturn_iff s).mp hret
      exact run i hd (exec_of_takesReturn i s hd.wellFormed hi ▸ returnWhen_empty _ s hsp)
  | divideByZero =>
    obtain ⟨hpolicy, a, b, d, hd, hb⟩ := h
    obtain ⟨hdiv, hmod⟩ := zeroDivisorFaults s a b d hpolicy hb
    rcases hd with hd | hd
    · exact run _ hd hdiv
    · exact run _ hd hmod

/-- The causes of R77 and the statuses agree. -/
theorem step_status_iff (s t : State) (hwf : s.cfg.WF) (h : step s = .next t) (st : Status)
    (hne : st ≠ .continue_) : t.status = some st ↔ StatusCause s st := by
  constructor
  · intro hst
    obtain ⟨st', hst', hcause⟩ := step_statusCause s t hwf h
    rw [hst] at hst'
    cases hst'
    exact hcause
  · intro hcause
    obtain ⟨hrom, -⟩ := step_cases s t h
    obtain ⟨u, hu, hst⟩ := exists_step_of_statusCause s st hwf hrom hne hcause
    rw [h] at hu
    cases hu
    exact hst

/-- Settles O23: row by row, `step_status_iff`. -/
theorem statusHasItsCause : Obligations.StatusHasItsCause := by
  intro s t hwf h
  have row := step_status_iff s t hwf h
  refine ⟨row .halted (by decide), row .nextFrame (by decide), row .endOfRom (by decide),
    row .invalidInstruction (by decide), row .stackOutOfBounds (by decide),
    row .divideByZero (by decide), memoryOutOfBoundsNeverDelivered s t h, fun hnone => ?_⟩
  obtain ⟨st, hst, -⟩ := step_statusCause s t hwf h
  rw [hnone] at hst
  cases hst

end Sys2Proof.Machine
end

section
/-! The invariant of a machine (10_state.md R27). Every step keeps each of its parts; the bound
of the cursor rests on that of the ROM, since an instruction is dispatched only where it fits. Reset and
construction begin with the invariant. -/

namespace Sys2Proof.Machine

open Sys2Proof.Claims

/-! ### The cursor -/

/-- The cursor is in the ROM or just past it, or it stands in normal mode at an address that a transfer
can give it. -/
def State.CursorOk (s : State) : Prop :=
  s.pc.toNat ≤ s.rom.length ∨ (s.ignoring = false ∧ s.pc.toNat ≤ 65536)

theorem cursorOk_iff (s : State) (hrom : s.rom.length ≤ maxRomLen) :
    s.CursorOk ↔ s.pc.toNat ≤ 65536 ∧ (s.ignoring = true → s.pc.toNat ≤ s.rom.length) := by
  rw [maxRomLen] at hrom
  constructor
  · rintro (hpc | ⟨hi, hpc⟩)
    · exact ⟨by omega, fun _ => hpc⟩
    · exact ⟨hpc, by simp [hi]⟩
  · rintro ⟨hpc, hscan⟩
    cases hi : s.ignoring with
    | true => exact .inl (hscan hi)
    | false => exact .inr ⟨hi, hpc⟩

/-- The address after a dispatched instruction is in the ROM or just past it. -/
theorem Dispatches.next_le {s : State} {i : Instr} (hrom : s.rom.length ≤ maxRomLen)
    (h : Dispatches s i) :
    (s.pc + BitVec.ofNat 17 i.opcode.length).toNat ≤ s.rom.length := by
  have hfits := h.length_le
  rw [maxRomLen] at hrom
  rw [cursor_add_toNat _ _ (by omega)]
  exact hfits

theorem exec_cursorOk (i : Instr) (s t : State) (hrom : s.rom.length ≤ maxRomLen)
    (hd : Dispatches s i) (h : exec i s = .next t) : t.CursorOk := by
  have hnormal := hd.ignoring_eq_false
  have hnext := hd.next_le hrom
  have hpc : s.pc.toNat ≤ s.rom.length := by have := hd.length_le; omega
  cases exec_cases i s t h with
  | fellThrough | wroteRegister | wroteMemory => exact .inl hnext
  | nextFrame hi | ignore hi | unignore hi => subst hi; exact .inl hnext
  | halted | faulted => exact .inl hpc
  | jumped g | called g =>
    refine .inr ⟨hnormal, ?_⟩
    have := g.isLt
    rw [State.pc_jumpTo, setWidth_target_toNat]
    omega
  | returned =>
    refine .inr ⟨hnormal, ?_⟩
    have hlt := (s.stack.getD (s.sp - 1) 0).isLt
    have hone : (1 : Cursor).toNat = 1 := rfl
    simp only [State.pc_deliver, State.pc_withPc, BitVec.toNat_add, setWidth_target_toNat, hone]
    omega

theorem step_cursorOk (s t : State) (hrom : s.rom.length ≤ maxRomLen) (hs : s.CursorOk)
    (h : step s = .next t) : t.CursorOk := by
  obtain ⟨-, hcase⟩ := step_cases s t h
  cases hcase with
  | halted | pastRom | invalid | truncated => exact hs
  | scanned b _ _ hb =>
    obtain ⟨hpc, -⟩ := List.getElem?_eq_some_iff.mp hb
    refine .inl ?_
    rw [maxRomLen] at hrom
    simp only [State.pc_deliver, State.pc_advance, State.pc_withIgnoring, State.rom_deliver,
      State.rom_advance, State.rom_withIgnoring]
    rw [cursor_add_toNat _ _ (by omega)]
    exact hpc
  | dispatched i _ hd hexec => exact exec_cursorOk i s t hrom hd hexec

/-! ### Call stack and memory -/

theorem exec_stackOk (i : Instr) (s t : State) (hs : s.StackOk) (h : exec i s = .next t) :
    t.StackOk := by
  obtain ⟨hlen, hsp⟩ := hs
  cases exec_cases i s t h with
  | called g _ _ hroom =>
    refine ⟨(List.length_set ..).trans hlen, ?_⟩
    exact Nat.lt_of_le_of_ne hsp hroom
  | returned => exact ⟨hlen, (Nat.sub_le ..).trans hsp⟩
  | fellThrough | nextFrame | halted | wroteRegister | wroteMemory | jumped | ignore | unignore
  | faulted => exact ⟨hlen, hsp⟩

theorem step_stackOk (s t : State) (hs : s.StackOk) (h : step s = .next t) : t.StackOk := by
  obtain ⟨-, hcase⟩ := step_cases s t h
  cases hcase with
  | halted | pastRom | scanned | invalid | truncated => exact hs
  | dispatched i _ _ hexec => exact exec_stackOk i s t hs hexec

theorem exec_mem_wf (i : Instr) (s t : State) (hs : s.mem.wf = true) (h : exec i s = .next t) :
    t.mem.wf = true := by
  cases exec_cases i s t h with
  | wroteMemory a v => exact Memory.write_wf _ _ _ hs
  | fellThrough | nextFrame | halted | wroteRegister | jumped | called | returned | ignore
  | unignore | faulted => exact hs

theorem step_mem_wf (s t : State) (hs : s.mem.wf = true) (h : step s = .next t) :
    t.mem.wf = true := by
  obtain ⟨-, hcase⟩ := step_cases s t h
  cases hcase with
  | halted | pastRom | scanned | invalid | truncated => exact hs
  | dispatched i _ _ hexec => exact exec_mem_wf i s t hs hexec

/-! ### HALT and the status -/

/-- A step leaves `HALT` and the status in agreement, whatever they were before it. -/
theorem step_statusOk (s t : State) (h : step s = .next t) : t.StatusOk := by
  cases step_delivery s t h with
  | goesOn hstatus hhalt => simp [State.StatusOk, hstatus, hhalt, Status.isTerminal]
  | endsFrame hd ht =>
    subst ht
    simp [State.StatusOk, hd.halt_eq_false, Status.isTerminal]
  | stops st hst hstatus hhalt =>
    have hterminal : st.isTerminal = true := by
      simp only [List.mem_cons, List.not_mem_nil, or_false] at hst
      rcases hst with rfl | rfl | rfl | rfl | rfl <;> rfl
    exact ⟨fun _ => ⟨st, hstatus, hterminal⟩, fun _ => hhalt⟩

/-! ### The invariant -/

/-- Settles O14, part by part; the ROM and the configuration are not touched. -/
theorem stepKeepsInvariant : Obligations.StepKeepsInvariant := by
  intro s t hs h
  obtain ⟨hrom, hcfg⟩ := step_keeps_rom_cfg s t h
  have hlen : t.rom.length ≤ maxRomLen := hrom ▸ hs.rom
  have hcursor := step_cursorOk s t hs.rom ((cursorOk_iff s hs.rom).mpr ⟨hs.cursor, hs.scanning⟩) h
  obtain ⟨hpc, hscan⟩ := (cursorOk_iff t hlen).mp hcursor
  exact { config := hcfg ▸ hs.config, rom := hlen, cursor := hpc, scanning := hscan,
          stack := step_stackOk s t hs.stack h, memory := step_mem_wf s t hs.memory h,
          status := step_statusOk s t h }

theorem initial_inv (cfg : Config) (rom : List Byte) (hwf : cfg.WF)
    (hrom : rom.length ≤ maxRomLen) : (State.initial cfg rom).Inv where
  config := hwf
  rom := hrom
  cursor := Nat.zero_le _
  scanning := fun h => nomatch h
  stack := ⟨List.length_replicate, Nat.zero_le _⟩
  memory := State.initial_mem_wf cfg rom
  status := by simp [State.StatusOk]

/-- Settles O15. -/
theorem resetHasInvariant : Obligations.ResetHasInvariant :=
  initial_inv Config.specDefault [] Config.specDefault_wf (Nat.zero_le _)

theorem construct_eq_none (cfg : Config) (rom : List Byte) (hwf : cfg.WF) :
    construct cfg rom = none ↔ rom.length = 0 ∨ 65536 < rom.length := by
  have hrefused : construct cfg rom = none ↔ romRefusal rom ≠ none := by
    rw [construct, if_pos hwf]
    cases romRefusal rom with
    | none => simp
    | some r => simp
  rw [hrefused, ne_eq, romRefusal_eq_none, maxRomLen]
  omega

theorem initial_reg (cfg : Config) (rom : List Byte) (b : Byte) :
    (State.initial cfg rom).reg b = 0#8 := by
  simp [State.reg, Vector.get_eq_getElem]

/-- Settles O16: `construct` answers `State.initial`, whose fields are the values of R26. -/
theorem constructGivesResetState : Obligations.ConstructGivesResetState := by
  intro cfg rom hwf
  refine ⟨construct_eq_none cfg rom hwf, fun s hs => ?_⟩
  obtain ⟨-, hrom, rfl⟩ := (construct_eq_some cfg rom s).mp hs
  obtain ⟨-, hlen⟩ := (romRefusal_eq_none rom).mp hrom
  exact ⟨rfl, rfl, rfl, rfl, List.length_replicate, rfl, rfl,
    fun b => congrArg BitVec.toNat (initial_reg cfg rom b), fun _ => rfl,
    initial_inv cfg rom hwf hlen⟩

end Sys2Proof.Machine
end

section
/-! A step reads the five bytes of the ROM from the cursor on and its length, and nothing else of it
(20_memory.md R31, 30_encoding.md R50). No instruction reads the ROM, so what is left to show is that
decoding answers alike: an instruction is at most five bytes long. -/

namespace Sys2Proof.Machine

open Sys2Proof.Claims

/-! ### Decoding reads five bytes -/

theorem decode_instr_of_take_eq (cfg : Config) (bs bs' rest : List Byte) (i : Instr)
    (htake : bs'.take 5 = bs.take 5) (h : decode cfg bs = .instr i rest) :
    ∃ rest', decode cfg bs' = .instr i rest' := by
  obtain ⟨b, hbs, hop⟩ := (decode_eq_instr cfg bs rest i).mp h
  have hlen : i.opcode.length ≤ 5 := i.opcode.length_le
  have htake' : bs'.take i.opcode.length = bs.take i.opcode.length := by
    have := congrArg (List.take i.opcode.length) htake
    rwa [List.take_take, List.take_take, Nat.min_eq_left hlen] at this
  have henc : bs.take i.opcode.length = b :: (encode cfg.opcodes i).tail := by
    rw [hbs, ← length_encode_tail cfg.opcodes i, List.take_succ_cons, List.take_left]
  refine ⟨bs'.drop i.opcode.length, (decode_eq_instr cfg bs' _ i).mpr ⟨b, ?_, hop⟩⟩
  rw [← List.cons_append, ← henc, ← htake', List.take_append_drop]

theorem head?_eq_of_take_eq {bs bs' : List Byte} (htake : bs'.take 5 = bs.take 5) :
    bs'.head? = bs.head? := by
  simpa [List.head?_take] using congrArg List.head? htake

theorem decode_invalidOpcode_of_take_eq (cfg : Config) (bs bs' : List Byte) (c : Byte)
    (htake : bs'.take 5 = bs.take 5) (h : decode cfg bs = .invalidOpcode c) :
    decode cfg bs' = .invalidOpcode c := by
  obtain ⟨tl, rfl, hc⟩ := (decode_eq_invalidOpcode cfg bs c).mp h
  obtain ⟨tl', htl'⟩ := List.head?_eq_some_iff.mp (head?_eq_of_take_eq htake)
  exact (decode_eq_invalidOpcode cfg bs' c).mpr ⟨tl', htl', hc⟩

theorem decode_endOfRom_of_take_eq (cfg : Config) (bs bs' : List Byte)
    (htake : bs'.take 5 = bs.take 5) (hlength : bs'.length = bs.length)
    (h : decode cfg bs = .endOfRom) : decode cfg bs' = .endOfRom := by
  refine (decode_eq_endOfRom cfg bs').mpr ?_
  rcases (decode_eq_endOfRom cfg bs).mp h with rfl | ⟨b, tl, op, rfl, hop, hlen⟩
  · exact .inl (List.length_eq_zero_iff.mp hlength)
  · obtain ⟨tl', htl'⟩ := List.head?_eq_some_iff.mp (head?_eq_of_take_eq htake)
    exact .inr ⟨b, tl', op, htl', hop, hlength ▸ hlen⟩

/-! ### No instruction reads the ROM -/

theorem transfer_withRom {op : Opcode} {taken : Bool} {g : Addr} {s t : State} (rom : List Byte)
    (h : transfer op taken g s = .next t) :
    transfer op taken g (s.withRom rom) = .next (t.withRom rom) := by
  rw [transfer_eq_next] at h ⊢
  rcases h with ⟨htaken, rfl⟩ | ⟨htaken, hcall, rfl⟩ | ⟨htaken, hcall, hsp, rfl⟩ |
    ⟨htaken, hcall, hsp, rfl⟩
  · exact .inl ⟨htaken, rfl⟩
  · exact .inr (.inl ⟨htaken, hcall, rfl⟩)
  · exact .inr (.inr (.inl ⟨htaken, hcall, hsp, rfl⟩))
  · exact .inr (.inr (.inr ⟨htaken, hcall, hsp, rfl⟩))

theorem returnWhen_withRom {op : Opcode} {taken : Bool} {s t : State} (rom : List Byte)
    (h : returnWhen op taken s = .next t) :
    returnWhen op taken (s.withRom rom) = .next (t.withRom rom) := by
  rw [returnWhen_eq_next] at h ⊢
  rcases h with ⟨htaken, rfl⟩ | ⟨htaken, hsp, rfl⟩ | ⟨htaken, hsp, rfl⟩
  · exact .inl ⟨htaken, rfl⟩
  · exact .inr (.inl ⟨htaken, hsp, rfl⟩)
  · exact .inr (.inr ⟨htaken, hsp, rfl⟩)

theorem returnIf_withRom {op : Opcode} {cc : Cond} {a b : Byte} {s t : State} (rom : List Byte)
    (h : returnIf op cc a b s = .next t) :
    returnIf op cc a b (s.withRom rom) = .next (t.withRom rom) := by
  cases hret : s.cfg.condReturn with
  | implemented =>
    rw [returnIf_of_implemented op cc a b s hret] at h
    rw [returnIf_of_implemented op cc a b (s.withRom rom) hret]
    exact returnWhen_withRom rom h
  | rejected =>
    rw [returnIf_of_rejected op cc a b s hret] at h
    rw [returnIf_of_rejected op cc a b (s.withRom rom) hret]
    cases h
    rfl

theorem threeRegMayRaise_withRom {op : Opcode} {f : Byte → Byte → Except Status Byte}
    {a b d : Byte} {s t : State} (rom : List Byte)
    (h : threeRegMayRaise op f a b d s = .next t) :
    threeRegMayRaise op f a b d (s.withRom rom) = .next (t.withRom rom) := by
  rw [threeRegMayRaise_eq_next] at h ⊢
  rcases h with ⟨v, hv, rfl⟩ | ⟨st, hst, rfl⟩
  · exact .inl ⟨v, hv, rfl⟩
  · exact .inr ⟨st, hst, rfl⟩

/-- With another ROM an instruction answers the same state with that ROM in it. -/
theorem exec_withRom (i : Instr) (s t : State) (rom : List Byte) (h : exec i s = .next t) :
    exec i (s.withRom rom) = .next (t.withRom rom) := by
  cases i with
  | nop | nxt | hlt | srb | srr | not | opIgnore => cases h; rfl
  | add | sub | mul | xor | and | orr | xnr | nan | nor | bsl | bsr => cases h; rfl
  | smr addr r => rw [exec_smr] at h ⊢; cases h; rfl
  | smb addr imm => rw [exec_smb] at h ⊢; cases h; rfl
  | srm d addr => rw [exec_srm] at h ⊢; cases h; rfl
  | div a b d =>
    rw [exec_div] at h ⊢
    exact threeRegMayRaise_withRom rom h
  | mod a b d =>
    rw [exec_mod] at h ⊢
    exact threeRegMayRaise_withRom rom h
  | psh g => exact transfer_withRom (op := .psh) (taken := true) rom h
  | jmp g => exact transfer_withRom (op := .jmp) (taken := true) rom h
  | teq | tnq | tgt | tlt | tge | tle | jeq | jnq | jgt | jlt | jge =>
    exact transfer_withRom rom h
  | jle a b g =>
    cases hjle : s.cfg.jle with
    | implemented =>
      have himpl : Implemented s.cfg .jle := by simp [Implemented, hjle]
      rw [exec_jle_of_implemented a b g s himpl] at h
      rw [exec_jle_of_implemented a b g (s.withRom rom) himpl]
      exact transfer_withRom rom h
    | rejected =>
      rw [exec_jle_of_rejected a b g s hjle] at h
      rw [exec_jle_of_rejected a b g (s.withRom rom) hjle]
      cases h
      rfl
  | pop => exact returnWhen_withRom (op := .pop) (taken := true) rom h
  | peq | pnq | pgt | plt | pge | ple => exact returnIf_withRom rom h
  | opUnignore =>
    cases hi : s.ignoring with
    | true =>
      simp only [exec, execOpUnignore, State.ignoring_withRom, hi, if_true] at h ⊢
      cases h
      rfl
    | false =>
      rw [exec_opUnignore_of_not_ignoring s hi] at h
      rw [exec_opUnignore_of_not_ignoring (s.withRom rom) hi]
      cases h
      rfl

/-! ### The step -/

/-- ROMs that agree on the five bytes from a position on have the same five bytes there. -/
theorem take_drop_eq_of_getElem?_eq (rom rom' : List Byte) (p : Nat)
    (h : ∀ k, k < 5 → rom'[p + k]? = rom[p + k]?) :
    (rom'.drop p).take 5 = (rom.drop p).take 5 := by
  apply List.ext_getElem?
  intro k
  by_cases hk : k < 5
  · simp [List.getElem?_drop, hk, h k hk]
  · simp [hk]

theorem stepCase_withRom (s t : State) (rom : List Byte) (hlen : rom.length = s.rom.length)
    (hbytes : ∀ k, k < 5 → rom[s.pc.toNat + k]? = s.rom[s.pc.toNat + k]?) (h : StepCase s t) :
    StepCase (s.withRom rom) (t.withRom rom) := by
  have htake := take_drop_eq_of_getElem?_eq s.rom rom s.pc.toNat hbytes
  have hdrop : (rom.drop s.pc.toNat).length = (s.rom.drop s.pc.toNat).length := by
    rw [List.length_drop, List.length_drop, hlen]
  cases h with
  | halted hs => exact .halted hs
  | pastRom hr hpc => exact .pastRom hr (hlen.trans_le hpc)
  | scanned b hr hi hb => exact .scanned b hr hi ((hbytes 0 (by decide)).trans hb)
  | dispatched i _ hd hexec =>
    obtain ⟨hr, hi, rest, hdec⟩ := hd
    have hdec' := decode_instr_of_take_eq s.cfg _ (rom.drop s.pc.toNat) rest i htake hdec
    exact .dispatched i _ ⟨hr, hi, hdec'⟩ (exec_withRom i s t rom hexec)
  | invalid b hr hi hb =>
    exact .invalid b hr hi (decode_invalidOpcode_of_take_eq s.cfg _ _ b htake hb)
  | truncated hr hi hb =>
    exact .truncated hr hi (decode_endOfRom_of_take_eq s.cfg _ _ htake hdrop hb)

/-- Settles O20: the step with the other ROM completes in the same way. -/
theorem stepReadsFiveRomBytes : Obligations.StepReadsFiveRomBytes := by
  intro s t rom hlen hbytes h
  obtain ⟨hrom, hcase⟩ := step_cases s t h
  have hrom' : (s.withRom rom).RomOk := by simpa only [State.RomOk, State.rom_withRom, hlen] using hrom
  exact step_of_stepCase _ _ hrom' (stepCase_withRom s t rom hlen hbytes hcase)

end Sys2Proof.Machine
end

section
/-! Two runs of any length: the scan over a data region (46_data_skip.md R172), and the jump to itself
(40_step_dispatch.md R80). -/

namespace Sys2Proof.Machine

open Sys2Proof.Claims

/-! ### The scan -/

/-- The state after the scan of a byte that is not the end sentinel. -/
def State.scannedPast (s : State) : State := (s.advance 1).deliver .continue_

theorem byte_eq_of_drop_eq_cons {s : State} {b : Byte} {bs : List Byte}
    (h : s.rom.drop s.pc.toNat = b :: bs) : s.rom[s.pc.toNat]? = some b := by
  rw [← List.head?_drop, h, List.head?_cons]

theorem step_of_scan (s : State) (b : Byte) (hrom : s.RomOk) (hr : s.halt = false)
    (hi : s.ignoring = true) (hb : s.rom[s.pc.toNat]? = some b)
    (hne : b ≠ s.cfg.opcodes.opUnignore) : step s = .next s.scannedPast := by
  rw [step_of_stepCase s _ hrom (.scanned b hr hi hb)]
  simp [hne, State.withIgnoring, State.scannedPast, ← hi]

theorem step_of_scan_sentinel (s : State) (hrom : s.RomOk) (hr : s.halt = false)
    (hi : s.ignoring = true) (hb : s.rom[s.pc.toNat]? = some s.cfg.opcodes.opUnignore) :
    step s = .next { s with pc := s.pc + 1, ignoring := false, status := some .continue_ } := by
  rw [step_of_stepCase s _ hrom (.scanned _ hr hi hb)]
  simp only [ne_eq, not_true_eq_false, decide_false]
  rfl

theorem scannedPast_pc (s : State) (b : Byte) (hrom : s.RomOk) (hb : s.rom[s.pc.toNat]? = some b) :
    s.scannedPast.pc.toNat = s.pc.toNat + 1 := by
  obtain ⟨hpc, -⟩ := List.getElem?_eq_some_iff.mp hb
  obtain ⟨-, hlen⟩ := hrom
  rw [maxRomLen] at hlen
  exact cursor_add_toNat s.pc 1 (by omega)

/-- A step that delivers `CONTINUE` begins a safe run where the rest of the run is safe. -/
theorem safeRun_succ {n : Nat} {s t : State} (h : step s = .next t)
    (hst : t.status = some .continue_) (ht : SafeRun n t) : SafeRun (n + 1) s := by
  refine ⟨t, h, fun st hst' => ?_, ht⟩
  rw [hst] at hst'
  cases hst'
  rfl

/-- Settles O52, by induction on the data: the first byte is passed over, and the rest of the region
begins at the next one. -/
theorem dataRegionIsSkipped : Obligations.DataRegionIsSkipped := by
  intro s data rest hrom hr hi hdrop hdata
  induction data generalizing s with
  | nil =>
    have hstep := step_of_scan_sentinel s hrom hr hi (byte_eq_of_drop_eq_cons hdrop)
    refine ⟨safeRun_succ hstep rfl trivial, (run_succ_of_step 0 s _ hstep).trans ?_⟩
    have hpc : BitVec.ofNat 17 (s.pc.toNat + 0 + 1) = s.pc + 1 := by
      rw [Nat.add_zero, BitVec.ofNat_add, BitVec.ofNat_toNat, BitVec.setWidth_eq]
      rfl
    rw [List.length_nil, hpc]
    rfl
  | cons b data ih =>
    rw [List.mem_cons, not_or] at hdata
    obtain ⟨hne, hdata'⟩ := hdata
    have hb := byte_eq_of_drop_eq_cons hdrop
    have hstep := step_of_scan s b hrom hr hi hb (Ne.symm hne)
    have hpc := scannedPast_pc s b hrom hb
    have hdrop' : s.rom.drop s.scannedPast.pc.toNat =
        data ++ s.cfg.opcodes.opUnignore :: rest := by
      rw [hpc, ← List.tail_drop, hdrop, List.cons_append, List.tail_cons]
    obtain ⟨hsafe, hrun⟩ := ih s.scannedPast hrom hr hi hdrop' hdata'
    refine ⟨safeRun_succ hstep rfl hsafe, (run_succ_of_step _ s _ hstep).trans (hrun.trans ?_)⟩
    rw [hpc, List.length_cons, Nat.add_assoc s.pc.toNat, Nat.add_comm 1]
    rfl

/-! ### The jump to itself -/

theorem step_of_jmp (s : State) (g : Addr) (hwf : s.cfg.WF) (hrom : s.RomOk)
    (hd : Dispatches s (.jmp g)) : step s = .next (s.jumpTo g) := by
  rw [step_of_dispatches s _ hrom hd]
  exact (transfer_eq_next .jmp true g s _).mpr
    (.inr (.inl ⟨rfl, isCall_of_mem_jumps s .jmp hwf (by decide), rfl⟩))

/-- Settles O54, by induction on the bound: after the jump the machine dispatches the same jump. -/
theorem jumpToItselfHangsFrame : Obligations.JumpToItselfHangsFrame := by
  intro s g hwf hrom hd hg n
  induction n generalizing s with
  | zero => rfl
  | succ n ih =>
    have hpc : (s.jumpTo g).pc.toNat = s.pc.toNat := (setWidth_target_toNat g).trans hg
    have hd' : Dispatches (s.jumpTo g) (.jmp g) := by
      obtain ⟨hr, hi, rest, hdec⟩ := hd
      exact ⟨hr, hi, rest, by rw [hpc]; exact hdec⟩
    calc frame (n + 1) s
        = if (s.jumpTo g).status = some .continue_ then frame n (s.jumpTo g)
          else some (.next (s.jumpTo g)) := frame_succ_of_step n s _ (step_of_jmp s g hwf hrom hd)
      _ = frame n (s.jumpTo g) := if_pos rfl
      _ = none := ih (s.jumpTo g) hwf hrom hd' (hg.trans hpc.symm)

end Sys2Proof.Machine
end
